-- ==== Sys2Proof/Word.lean ====
section
/-! DEFINITION. The word types of the machine (spec/10_state.md R20, R35): bytes for registers and memory cells, 16-bit words for `I`, `PC`, stack slots and instructions, 12-bit addresses for the NNN field. -/

namespace Sys2Proof

/-- A memory cell, a V or FLAG register, DT or ST (R20): 8 bits, truncated modulo 256 (R35). -/
abbrev Byte := BitVec 8

/-- `I`, `PC`, a stack slot or an instruction word (R20, R90): 16 bits, truncated modulo 65536 (R35). -/
abbrev Word := BitVec 16

/-- The NNN field (R91): a 12-bit address, zero-extended to 16 bits where it is used (R93). -/
abbrev Addr := BitVec 12

/-- A register, flag register or key number (R21, R30, R93): 0 to 15, all of them valid. -/
abbrev Reg := Fin 16

end Sys2Proof
end

