-- ==== Sys2Proof/Syntax.lean ====
section
/-! DEFINITION. The instruction syntax: one constructor per row of spec/opcode_table.json, in the table's order (spec/30_encoding.md R95). -/

namespace Sys2Proof

/-- The 37 instructions of R95. Operands are the fields of R91: X and Y name registers (every value is
a register, R93), NN is an 8-bit immediate, NNN a 12-bit address, N the row count of `DXYN`. -/
inductive Instr where
  /-- `0000`, NOP: no operation (R140). -/
  | nop
  /-- `00E0`, CLS: clear framebuffer (R200). -/
  | cls
  /-- `00EE`, RET: return from subroutine (R141). -/
  | ret
  /-- `1NNN`, JP NNN: PC <- NNN (R142). -/
  | jp (nnn : Addr)
  /-- `2NNN`, CALL NNN: push PC; PC <- NNN (R143). -/
  | call (nnn : Addr)
  /-- `3XNN`, SE VX, NN: skip if V[X] == NN (R150). -/
  | seImm (x : Reg) (nn : Byte)
  /-- `4XNN`, SNE VX, NN: skip if V[X] != NN (R151). -/
  | sneImm (x : Reg) (nn : Byte)
  /-- `5XY0`, SE VX, VY: skip if V[X] == V[Y] (R152). -/
  | seReg (x y : Reg)
  /-- `6XNN`, LD VX, NN: V[X] <- NN (R160). -/
  | ldImm (x : Reg) (nn : Byte)
  /-- `7XNN`, ADD VX, NN: V[X] <- V[X] + NN, no flag (R161). -/
  | addImm (x : Reg) (nn : Byte)
  /-- `8XY0`, LD VX, VY: V[X] <- V[Y] (R171). -/
  | ldReg (x y : Reg)
  /-- `8XY1`, OR VX, VY: V[X] <- V[X] OR V[Y] (R172). -/
  | orReg (x y : Reg)
  /-- `8XY2`, AND VX, VY: V[X] <- V[X] AND V[Y] (R173). -/
  | andReg (x y : Reg)
  /-- `8XY3`, XOR VX, VY: V[X] <- V[X] XOR V[Y] (R174). -/
  | xorReg (x y : Reg)
  /-- `8XY4`, ADD VX, VY: add, VF = carry (R175). -/
  | addReg (x y : Reg)
  /-- `8XY5`, SUB VX, VY: V[X] - V[Y], VF = no borrow (R176). -/
  | subReg (x y : Reg)
  /-- `8XY6`, SHR VX, VY: VF = V[X] bit 0; V[X] <- V[Y] >> 1 (R177). -/
  | shrReg (x y : Reg)
  /-- `8XY7`, SUBN VX, VY: V[Y] - V[X], VF = no borrow (R178). -/
  | subnReg (x y : Reg)
  /-- `8XYE`, SHL VX, VY: VF = V[X] bit 7; V[X] <- V[Y] << 1 (R179). -/
  | shlReg (x y : Reg)
  /-- `9XY0`, SNE VX, VY: skip if V[X] != V[Y] (R153). -/
  | sneReg (x y : Reg)
  /-- `ANNN`, LD I, NNN: I <- NNN (R190). -/
  | ldI (nnn : Addr)
  /-- `BNNN`, JP V0, NNN: PC <- NNN + V[0] (R144). -/
  | jpV0 (nnn : Addr)
  /-- `CXNN`, RND VX, NN: V[X] <- random AND NN (R162). -/
  | rnd (x : Reg) (nn : Byte)
  /-- `DXYN`, DRW VX, VY, N: XOR-draw N-row sprite, VF = collision (R201). -/
  | drw (x y : Reg) (n : Nat)
  /-- `EX9E`, SKP VX: skip if key V[X] pressed (R210). -/
  | skp (x : Reg)
  /-- `EXA1`, SKNP VX: skip if key V[X] not pressed (R211). -/
  | sknp (x : Reg)
  /-- `FX07`, LD VX, DT: V[X] <- DT (R220). -/
  | ldVDt (x : Reg)
  /-- `FX0A`, LD VX, K: wait for any key; V[X] <- 1 (R212). -/
  | ldVKey (x : Reg)
  /-- `FX15`, LD DT, VX: DT <- V[X] (R221). -/
  | ldDtV (x : Reg)
  /-- `FX18`, LD ST, VX: ST <- V[X] (R222). -/
  | ldStV (x : Reg)
  /-- `FX1E`, ADD I, VX: I <- I + V[X] (R191). -/
  | addI (x : Reg)
  /-- `FX29`, LD F, VX: I <- V[X] * 5 (R192). -/
  | ldFont (x : Reg)
  /-- `FX33`, LD B, VX: store BCD of V[X] at I (R193). -/
  | ldBcd (x : Reg)
  /-- `FX55`, LD [I], VX: store V[0..X] at I; I += X+1 (R194). -/
  | storeRegs (x : Reg)
  /-- `FX65`, LD VX, [I]: load V[0..X] from I; I += X+1 (R195). -/
  | loadRegs (x : Reg)
  /-- `FX75`, LD R, VX: FLAG[0..X] <- V[0..X] (R223). -/
  | saveFlags (x : Reg)
  /-- `FX85`, LD VX, R: V[0..X] <- FLAG[0..X] (R224). -/
  | restoreFlags (x : Reg)
  deriving DecidableEq, Repr

end Sys2Proof
end

