-- ==== Sys2Proof/WellFormed.lean ====
section
/-! DEFINITION. Which instruction terms the encoding can express (spec/30_encoding.md R91, R93). -/

namespace Sys2Proof

/-- Every X, Y, NN and NNN value is encodable, because their types have the field's width and no
register number is reserved (R93). The row count of `DXYN` is a plain number in the syntax, and the
field holds 0 to 15 (R93). -/
def Instr.wf : Instr → Bool
  | .drw _ _ n => decide (n < 16)
  | .nop | .cls | .ret => true
  | .jp _ | .call _ | .ldI _ | .jpV0 _ => true
  | .seImm _ _ | .sneImm _ _ | .ldImm _ _ | .addImm _ _ | .rnd _ _ => true
  | .seReg _ _ | .sneReg _ _ | .ldReg _ _ | .orReg _ _ | .andReg _ _ | .xorReg _ _ => true
  | .addReg _ _ | .subReg _ _ | .shrReg _ _ | .subnReg _ _ | .shlReg _ _ => true
  | .skp _ | .sknp _ | .ldVDt _ | .ldVKey _ | .ldDtV _ | .ldStV _ => true
  | .addI _ | .ldFont _ | .ldBcd _ | .storeRegs _ | .loadRegs _ => true
  | .saveFlags _ | .restoreFlags _ => true

end Sys2Proof
end

