-- ==== Sys2Proof/Decode.lean ====
section
/-! DEFINITION. Decoding and encoding (spec/30_encoding.md): the fields of a word, the decode procedure of R94, the opcode map of R95 as a table of masks, the encoder, and the two numberings of an instruction's bits. -/

namespace Sys2Proof

/-- The high byte of a word: the byte at the lower address of an instruction (R64). -/
def hiByte (w : Word) : Byte := w.extractLsb' 8 8

/-- The low byte of a word: the byte at the higher address of an instruction (R64). -/
def loByte (w : Word) : Byte := w.extractLsb' 0 8

/-- The bytes of an instruction word in the order of their addresses: big-endian (R64, R90). -/
def wordBytes (w : Word) : List Byte := [hiByte w, loByte w]

/-- `F = op[15:12]`, the family (R91). -/
def fieldF (op : Word) : BitVec 4 := op.extractLsb' 12 4

/-- `X = op[11:8]` (R91). -/
def fieldX (op : Word) : Reg := (op.extractLsb' 8 4).toFin

/-- `Y = op[7:4]` (R91). -/
def fieldY (op : Word) : Reg := (op.extractLsb' 4 4).toFin

/-- `N = op[3:0]` (R91). -/
def fieldN (op : Word) : BitVec 4 := op.extractLsb' 0 4

/-- `NN = op[7:0]` (R91). -/
def fieldNN (op : Word) : Byte := op.extractLsb' 0 8

/-- `NNN = op[11:0]` (R91). -/
def fieldNNN (op : Word) : Addr := op.extractLsb' 0 12

/-- Why the decoder gives no instruction. -/
inductive Reject where
  /-- The word matches no row of the opcode map (R96). -/
  | invalidOpcode (op : Word)
  /-- Fewer than the two bytes of an instruction (R90); a fetch never meets this. -/
  | truncated (available : Nat)
  deriving DecidableEq, Repr

/-- Family 0: the sub-code is the low 12 bits, all of them examined (R97, log entry 9). -/
def decodeFamily0 (op : Word) : Except Reject Instr :=
  if fieldNNN op = 0x000#12 then .ok .nop
  else if fieldNNN op = 0x0E0#12 then .ok .cls
  else if fieldNNN op = 0x0EE#12 then .ok .ret
  else .error (.invalidOpcode op)

/-- Family 8: the sub-code is the low nibble (R94, R96). -/
def decodeFamily8 (op : Word) : Except Reject Instr :=
  if fieldN op = 0x0#4 then .ok (.ldReg (fieldX op) (fieldY op))
  else if fieldN op = 0x1#4 then .ok (.orReg (fieldX op) (fieldY op))
  else if fieldN op = 0x2#4 then .ok (.andReg (fieldX op) (fieldY op))
  else if fieldN op = 0x3#4 then .ok (.xorReg (fieldX op) (fieldY op))
  else if fieldN op = 0x4#4 then .ok (.addReg (fieldX op) (fieldY op))
  else if fieldN op = 0x5#4 then .ok (.subReg (fieldX op) (fieldY op))
  else if fieldN op = 0x6#4 then .ok (.shrReg (fieldX op) (fieldY op))
  else if fieldN op = 0x7#4 then .ok (.subnReg (fieldX op) (fieldY op))
  else if fieldN op = 0xE#4 then .ok (.shlReg (fieldX op) (fieldY op))
  else .error (.invalidOpcode op)

/-- Family E: the sub-code is the low byte (R94, R96). -/
def decodeFamilyE (op : Word) : Except Reject Instr :=
  if fieldNN op = 0x9E#8 then .ok (.skp (fieldX op))
  else if fieldNN op = 0xA1#8 then .ok (.sknp (fieldX op))
  else .error (.invalidOpcode op)

/-- Family F: the sub-code is the low byte (R94, R96). -/
def decodeFamilyF (op : Word) : Except Reject Instr :=
  if fieldNN op = 0x07#8 then .ok (.ldVDt (fieldX op))
  else if fieldNN op = 0x0A#8 then .ok (.ldVKey (fieldX op))
  else if fieldNN op = 0x15#8 then .ok (.ldDtV (fieldX op))
  else if fieldNN op = 0x18#8 then .ok (.ldStV (fieldX op))
  else if fieldNN op = 0x1E#8 then .ok (.addI (fieldX op))
  else if fieldNN op = 0x29#8 then .ok (.ldFont (fieldX op))
  else if fieldNN op = 0x33#8 then .ok (.ldBcd (fieldX op))
  else if fieldNN op = 0x55#8 then .ok (.storeRegs (fieldX op))
  else if fieldNN op = 0x65#8 then .ok (.loadRegs (fieldX op))
  else if fieldNN op = 0x75#8 then .ok (.saveFlags (fieldX op))
  else if fieldNN op = 0x85#8 then .ok (.restoreFlags (fieldX op))
  else .error (.invalidOpcode op)

/-- Families 5 and 9: the low nibble must be 0 (R94, R96). -/
def decodeNibbleZero (i : Instr) (op : Word) : Except Reject Instr :=
  if fieldN op = 0x0#4 then .ok i else .error (.invalidOpcode op)

/-- The decode procedure of R94, total on all 65536 words: the family nibble first, then the sub-code
of the families that have one. -/
def decode (op : Word) : Except Reject Instr :=
  if fieldF op = 0x0#4 then decodeFamily0 op
  else if fieldF op = 0x1#4 then .ok (.jp (fieldNNN op))
  else if fieldF op = 0x2#4 then .ok (.call (fieldNNN op))
  else if fieldF op = 0x3#4 then .ok (.seImm (fieldX op) (fieldNN op))
  else if fieldF op = 0x4#4 then .ok (.sneImm (fieldX op) (fieldNN op))
  else if fieldF op = 0x5#4 then decodeNibbleZero (.seReg (fieldX op) (fieldY op)) op
  else if fieldF op = 0x6#4 then .ok (.ldImm (fieldX op) (fieldNN op))
  else if fieldF op = 0x7#4 then .ok (.addImm (fieldX op) (fieldNN op))
  else if fieldF op = 0x8#4 then decodeFamily8 op
  else if fieldF op = 0x9#4 then decodeNibbleZero (.sneReg (fieldX op) (fieldY op)) op
  else if fieldF op = 0xA#4 then .ok (.ldI (fieldNNN op))
  else if fieldF op = 0xB#4 then .ok (.jpV0 (fieldNNN op))
  else if fieldF op = 0xC#4 then .ok (.rnd (fieldX op) (fieldNN op))
  else if fieldF op = 0xD#4 then .ok (.drw (fieldX op) (fieldY op) (fieldN op).toNat)
  else if fieldF op = 0xE#4 then decodeFamilyE op
  else decodeFamilyF op

/-- Decoding a byte sequence: the first two bytes, high byte first (R64, R90), and the bytes left over. -/
def decodeBytes : List Byte → Except Reject (Instr × List Byte)
  | hi :: lo :: rest =>
    match decode (hi ++ lo) with
    | .ok i => .ok (i, rest)
    | .error r => .error r
  | [_] => .error (.truncated 1)
  | [] => .error (.truncated 0)

/-- One row of the opcode map of R95: a word selects the row when `op & mask == value`. -/
structure Row where
  pattern : String
  mask : Word
  value : Word
  deriving DecidableEq, Repr

/-- The rows of families 0 to 7 (R95). -/
def opcodeRowsLow : List Row :=
  [ ⟨"0000", 0xFFFF#16, 0x0000#16⟩
  , ⟨"00E0", 0xFFFF#16, 0x00E0#16⟩
  , ⟨"00EE", 0xFFFF#16, 0x00EE#16⟩
  , ⟨"1NNN", 0xF000#16, 0x1000#16⟩
  , ⟨"2NNN", 0xF000#16, 0x2000#16⟩
  , ⟨"3XNN", 0xF000#16, 0x3000#16⟩
  , ⟨"4XNN", 0xF000#16, 0x4000#16⟩
  , ⟨"5XY0", 0xF00F#16, 0x5000#16⟩
  , ⟨"6XNN", 0xF000#16, 0x6000#16⟩
  , ⟨"7XNN", 0xF000#16, 0x7000#16⟩ ]

/-- The rows of families 8 to D (R95). -/
def opcodeRowsMid : List Row :=
  [ ⟨"8XY0", 0xF00F#16, 0x8000#16⟩
  , ⟨"8XY1", 0xF00F#16, 0x8001#16⟩
  , ⟨"8XY2", 0xF00F#16, 0x8002#16⟩
  , ⟨"8XY3", 0xF00F#16, 0x8003#16⟩
  , ⟨"8XY4", 0xF00F#16, 0x8004#16⟩
  , ⟨"8XY5", 0xF00F#16, 0x8005#16⟩
  , ⟨"8XY6", 0xF00F#16, 0x8006#16⟩
  , ⟨"8XY7", 0xF00F#16, 0x8007#16⟩
  , ⟨"8XYE", 0xF00F#16, 0x800E#16⟩
  , ⟨"9XY0", 0xF00F#16, 0x9000#16⟩
  , ⟨"ANNN", 0xF000#16, 0xA000#16⟩
  , ⟨"BNNN", 0xF000#16, 0xB000#16⟩
  , ⟨"CXNN", 0xF000#16, 0xC000#16⟩
  , ⟨"DXYN", 0xF000#16, 0xD000#16⟩ ]

/-- The rows of families E and F (R95). -/
def opcodeRowsHigh : List Row :=
  [ ⟨"EX9E", 0xF0FF#16, 0xE09E#16⟩
  , ⟨"EXA1", 0xF0FF#16, 0xE0A1#16⟩
  , ⟨"FX07", 0xF0FF#16, 0xF007#16⟩
  , ⟨"FX0A", 0xF0FF#16, 0xF00A#16⟩
  , ⟨"FX15", 0xF0FF#16, 0xF015#16⟩
  , ⟨"FX18", 0xF0FF#16, 0xF018#16⟩
  , ⟨"FX1E", 0xF0FF#16, 0xF01E#16⟩
  , ⟨"FX29", 0xF0FF#16, 0xF029#16⟩
  , ⟨"FX33", 0xF0FF#16, 0xF033#16⟩
  , ⟨"FX55", 0xF0FF#16, 0xF055#16⟩
  , ⟨"FX65", 0xF0FF#16, 0xF065#16⟩
  , ⟨"FX75", 0xF0FF#16, 0xF075#16⟩
  , ⟨"FX85", 0xF0FF#16, 0xF085#16⟩ ]

/-- The opcode map of R95, 37 rows. -/
def opcodeRows : List Row := opcodeRowsLow ++ opcodeRowsMid ++ opcodeRowsHigh

/-- Whether a word selects a row (R95). -/
def Row.selects (r : Row) (op : Word) : Bool := op &&& r.mask == r.value

/-- The four bits of a register number. -/
def regBits (r : Reg) : BitVec 4 := BitVec.ofFin r

/-- The word of an instruction, from the formats of R92 and the fixed bits of R95: the fields
concatenated from bit 15 down. Of a row count above 15, which no word holds, it keeps the low four bits. -/
def encode : Instr → Word
  | .nop => 0x0000#16
  | .cls => 0x00E0#16
  | .ret => 0x00EE#16
  | .jp nnn => 0x1#4 ++ nnn
  | .call nnn => 0x2#4 ++ nnn
  | .seImm x nn => 0x3#4 ++ regBits x ++ nn
  | .sneImm x nn => 0x4#4 ++ regBits x ++ nn
  | .seReg x y => 0x5#4 ++ regBits x ++ regBits y ++ 0x0#4
  | .ldImm x nn => 0x6#4 ++ regBits x ++ nn
  | .addImm x nn => 0x7#4 ++ regBits x ++ nn
  | .ldReg x y => 0x8#4 ++ regBits x ++ regBits y ++ 0x0#4
  | .orReg x y => 0x8#4 ++ regBits x ++ regBits y ++ 0x1#4
  | .andReg x y => 0x8#4 ++ regBits x ++ regBits y ++ 0x2#4
  | .xorReg x y => 0x8#4 ++ regBits x ++ regBits y ++ 0x3#4
  | .addReg x y => 0x8#4 ++ regBits x ++ regBits y ++ 0x4#4
  | .subReg x y => 0x8#4 ++ regBits x ++ regBits y ++ 0x5#4
  | .shrReg x y => 0x8#4 ++ regBits x ++ regBits y ++ 0x6#4
  | .subnReg x y => 0x8#4 ++ regBits x ++ regBits y ++ 0x7#4
  | .shlReg x y => 0x8#4 ++ regBits x ++ regBits y ++ 0xE#4
  | .sneReg x y => 0x9#4 ++ regBits x ++ regBits y ++ 0x0#4
  | .ldI nnn => 0xA#4 ++ nnn
  | .jpV0 nnn => 0xB#4 ++ nnn
  | .rnd x nn => 0xC#4 ++ regBits x ++ nn
  | .drw x y n => 0xD#4 ++ regBits x ++ regBits y ++ BitVec.ofNat 4 n
  | .skp x => 0xE#4 ++ regBits x ++ 0x9E#8
  | .sknp x => 0xE#4 ++ regBits x ++ 0xA1#8
  | .ldVDt x => 0xF#4 ++ regBits x ++ 0x07#8
  | .ldVKey x => 0xF#4 ++ regBits x ++ 0x0A#8
  | .ldDtV x => 0xF#4 ++ regBits x ++ 0x15#8
  | .ldStV x => 0xF#4 ++ regBits x ++ 0x18#8
  | .addI x => 0xF#4 ++ regBits x ++ 0x1E#8
  | .ldFont x => 0xF#4 ++ regBits x ++ 0x29#8
  | .ldBcd x => 0xF#4 ++ regBits x ++ 0x33#8
  | .storeRegs x => 0xF#4 ++ regBits x ++ 0x55#8
  | .loadRegs x => 0xF#4 ++ regBits x ++ 0x65#8
  | .saveFlags x => 0xF#4 ++ regBits x ++ 0x75#8
  | .restoreFlags x => 0xF#4 ++ regBits x ++ 0x85#8

/-- The row of the opcode map an instruction's words select (R95). -/
def Instr.row : Instr → Row
  | .nop => ⟨"0000", 0xFFFF#16, 0x0000#16⟩
  | .cls => ⟨"00E0", 0xFFFF#16, 0x00E0#16⟩
  | .ret => ⟨"00EE", 0xFFFF#16, 0x00EE#16⟩
  | .jp _ => ⟨"1NNN", 0xF000#16, 0x1000#16⟩
  | .call _ => ⟨"2NNN", 0xF000#16, 0x2000#16⟩
  | .seImm _ _ => ⟨"3XNN", 0xF000#16, 0x3000#16⟩
  | .sneImm _ _ => ⟨"4XNN", 0xF000#16, 0x4000#16⟩
  | .seReg _ _ => ⟨"5XY0", 0xF00F#16, 0x5000#16⟩
  | .ldImm _ _ => ⟨"6XNN", 0xF000#16, 0x6000#16⟩
  | .addImm _ _ => ⟨"7XNN", 0xF000#16, 0x7000#16⟩
  | .ldReg _ _ => ⟨"8XY0", 0xF00F#16, 0x8000#16⟩
  | .orReg _ _ => ⟨"8XY1", 0xF00F#16, 0x8001#16⟩
  | .andReg _ _ => ⟨"8XY2", 0xF00F#16, 0x8002#16⟩
  | .xorReg _ _ => ⟨"8XY3", 0xF00F#16, 0x8003#16⟩
  | .addReg _ _ => ⟨"8XY4", 0xF00F#16, 0x8004#16⟩
  | .subReg _ _ => ⟨"8XY5", 0xF00F#16, 0x8005#16⟩
  | .shrReg _ _ => ⟨"8XY6", 0xF00F#16, 0x8006#16⟩
  | .subnReg _ _ => ⟨"8XY7", 0xF00F#16, 0x8007#16⟩
  | .shlReg _ _ => ⟨"8XYE", 0xF00F#16, 0x800E#16⟩
  | .sneReg _ _ => ⟨"9XY0", 0xF00F#16, 0x9000#16⟩
  | .ldI _ => ⟨"ANNN", 0xF000#16, 0xA000#16⟩
  | .jpV0 _ => ⟨"BNNN", 0xF000#16, 0xB000#16⟩
  | .rnd _ _ => ⟨"CXNN", 0xF000#16, 0xC000#16⟩
  | .drw _ _ _ => ⟨"DXYN", 0xF000#16, 0xD000#16⟩
  | .skp _ => ⟨"EX9E", 0xF0FF#16, 0xE09E#16⟩
  | .sknp _ => ⟨"EXA1", 0xF0FF#16, 0xE0A1#16⟩
  | .ldVDt _ => ⟨"FX07", 0xF0FF#16, 0xF007#16⟩
  | .ldVKey _ => ⟨"FX0A", 0xF0FF#16, 0xF00A#16⟩
  | .ldDtV _ => ⟨"FX15", 0xF0FF#16, 0xF015#16⟩
  | .ldStV _ => ⟨"FX18", 0xF0FF#16, 0xF018#16⟩
  | .addI _ => ⟨"FX1E", 0xF0FF#16, 0xF01E#16⟩
  | .ldFont _ => ⟨"FX29", 0xF0FF#16, 0xF029#16⟩
  | .ldBcd _ => ⟨"FX33", 0xF0FF#16, 0xF033#16⟩
  | .storeRegs _ => ⟨"FX55", 0xF0FF#16, 0xF055#16⟩
  | .loadRegs _ => ⟨"FX65", 0xF0FF#16, 0xF065#16⟩
  | .saveFlags _ => ⟨"FX75", 0xF0FF#16, 0xF075#16⟩
  | .restoreFlags _ => ⟨"FX85", 0xF0FF#16, 0xF085#16⟩

/-- The bytes, as memory holds them, of an instruction whose bits are `w` numbered as
spec/opcode_table.json numbers them: one 16-bit word, bit 0 its least significant bit (R91), stored
high byte first (R64). Bits from `nbits` up are 0. -/
def tableWordBytes (nbits w : Nat) : List Byte := wordBytes (BitVec.ofNat 16 (w % 2 ^ nbits))

/-- What the decoder reads from an instruction whose bits are `w`, numbered as the opcode table numbers them. -/
def decodeTableWord (nbits w : Nat) : Option Instr :=
  match decodeBytes (tableWordBytes nbits w) with
  | .ok (i, _) => some i
  | .error _ => none

end Sys2Proof
end

