-- ==== Sys2Proof/Config.lean ====
section
/-! DEFINITION. What an implementation fixes (spec/00_scope.md R7): the sizes and addresses, the two parameters the spec leaves to the model, and the free random draw. -/

namespace Sys2Proof

/-- MEM_SIZE (R7): the address space is 0x000 to 0xFFF. -/
abbrev Config.memSize : Nat := 4096
/-- ENTRY_BASE (R7): load address of a ROM and initial PC. -/
abbrev Config.entryBase : Nat := 0x200
/-- STACK_BASE (R7). -/
abbrev Config.stackBase : Nat := 0xEA0
/-- STACK_SLOTS (R7): the capacity tested by `2NNN` (R143). -/
abbrev Config.stackSlots : Nat := 48
/-- FB_BASE (R7): the framebuffer view of memory. -/
abbrev Config.fbBase : Nat := 0xF00
/-- FB_SIZE (R7). -/
abbrev Config.fbSize : Nat := 256
/-- DFB_SIZE (R7): the detached framebuffer is one byte short of the picture (spec/90_conflicts.md C4). -/
abbrev Config.dfbSize : Nat := 255
/-- FB_DETACH_LIMIT (R7, C1): a ROM with 0x200 + length at or above it detaches the framebuffer. -/
abbrev Config.fbDetachLimit : Nat := 0xF00
/-- SCREEN_W (R7). -/
abbrev Config.screenW : Nat := 64
/-- SCREEN_H (R7). -/
abbrev Config.screenH : Nat := 32
/-- TICK_DIVISOR (R7): executed instructions per timer decrement (R126). -/
abbrev Config.tickDivisor : Nat := 6

/-- The values of the parameter STACK_BYTE_ORDER (R7, R65, D4). -/
inductive ByteOrder where
  | little
  | big
  deriving DecidableEq, Repr

/-- The parameters the spec leaves to the model as arguments (R7). They are fixed for one machine, and
no step and no host operation changes them: a statement about every state holds for each of their
values. Log entry 2. -/
structure Params where
  /-- STACK_BYTE_ORDER, default little (R65). -/
  stackByteOrder : ByteOrder
  /-- STACK_ERROR_CONFLATED, default false (R264). -/
  stackErrorConflated : Bool
  deriving DecidableEq, Repr

/-- The defaults of R7. -/
def Params.default : Params := { stackByteOrder := .little, stackErrorConflated := false }

/-- `random_byte()` (R162, R238): the n-th draw. Nothing constrains it; a statement holds for every draw.
Log entry 3. -/
opaque Config.randomByte : Nat → Byte

end Sys2Proof
end

