-- ==== Sys2Proof/Machine/Flags.lean ====
section
/-! DEFINITION. Arithmetic and what VF reports of it (spec/44_alu.md R175 to R180): the exact result as an integer, its narrowing, and the flag. -/

namespace Sys2Proof.Machine

/-- A condition as the value VF takes: 1 or 0 (R22). -/
def flagByte (c : Bool) : Byte := if c then 1 else 0

/-- `sum = V[X] + V[Y]`, 0 to 510 (R175). -/
def sumOf (a b : Byte) : Nat := a.toNat + b.toNat

/-- `sum mod 256` (R175). -/
def sumByte (a b : Byte) : Byte := BitVec.ofNat 8 (sumOf a b)

/-- VF of `8XY4`: 1 when the sum passes 255 (R175). -/
def carryFlag (a b : Byte) : Byte := flagByte (decide (sumOf a b > 255))

/-- `diff = a - b`, a signed integer (R176, R178). -/
def diffOf (a b : Byte) : Int := (a.toNat : Int) - (b.toNat : Int)

/-- `diff mod 256` (R176): `diff + 256` when the difference is negative. -/
def diffByte (a b : Byte) : Byte := BitVec.ofInt 8 (diffOf a b)

/-- VF of `8XY5` and `8XY7`: 1 when the difference is not negative, equality included (R176, R178). -/
def noBorrowFlag (a b : Byte) : Byte := flagByte (decide (diffOf a b ≥ 0))

/-- VF of `8XY6`: bit 0 of the old V[X] (R177). -/
def lowBitFlag (a : Byte) : Byte := a &&& 1

/-- VF of `8XYE`: bit 7 of the old V[X] (R179). -/
def highBitFlag (a : Byte) : Byte := (a >>> 7) &&& 1

/-- A timer's decrement: by 1 while above 0, never below it (R126, R180). -/
def countDown (b : Byte) : Byte := if b = 0 then 0 else b - 1

/-- VF of `DXYN` for one toggled pixel: whether the pixel was lit and so is turned off (R201). -/
def pixelCollides (old mask : Byte) : Bool := old &&& mask != 0

end Sys2Proof.Machine
end

