-- ==== Sys2Proof/Machine/Operands.lean ====
section
/-! DEFINITION. The operand forms (spec/30_encoding.md R93, spec/20_memory.md R62, R67): how a field or a register value becomes an address, a key, a register range, digits or a pixel position. -/

namespace Sys2Proof.Machine

/-- `VF` (R22): the register that doubles as the flag. -/
def regF : Reg := 15

/-- `zext_16(NNN)` (R8, R93). -/
def zext16 (nnn : Addr) : Word := nnn.setWidth 16

/-- The address of the byte `k` past a 16-bit base, before the memory takes it modulo 4096 (R62, R196). -/
def byteAddr (base : Word) (k : Nat) : Nat := base.toNat + k

/-- The cell accessed for an address: the address modulo 4096, byte by byte (R62, log entry 8). -/
def cellOf (addr : Nat) : Nat := addr % Config.memSize

/-- The key an 8-bit value names: its low four bits (R213, log entry 10). -/
def keyIndex (b : Byte) : Fin 16 := Fin.ofNat 16 b.toNat

/-- The registers `0..X` of `FX55`, `FX65`, `FX75`, `FX85`, ascending and inclusive (R194). -/
def regRange (x : Reg) : List Reg := (List.finRange 16).filter (· ≤ x)

/-- The address of the font glyph of a whole 8-bit value, `V[X] * 5` (R192). -/
def glyphAddr (b : Byte) : Word := BitVec.ofNat 16 (b.toNat * 5)

/-- The decimal digits of a byte: hundreds, tens, ones (R193). -/
def bcdDigits (b : Byte) : List Byte :=
  [ BitVec.ofNat 8 (b.toNat / 100), BitVec.ofNat 8 (b.toNat / 10 % 10), BitVec.ofNat 8 (b.toNat % 10) ]

/-- The first byte address of stack slot `s`; the slot's second byte is the next one (R66, log entry 7). -/
def slotAddr (s : Nat) : Nat := Config.stackBase + 2 * s

/-- The framebuffer byte that holds pixel (x, y) (R67). -/
def pixelByte (x y : Nat) : Nat := 8 * y + x / 8

/-- The mask of pixel column x within its framebuffer byte: most significant bit first (R67). -/
def pixelMask (x : Nat) : Byte := 0x80#8 >>> (x % 8)

/-- Whether a sprite byte lights column `col`: bit 7 is column 0 (R201, R202 (a), log entry 12). -/
def spriteBit (b : Byte) (col : Nat) : Bool := b &&& (0x80#8 >>> col) != 0

/-- The screen column of a sprite's column: each pixel wraps on its own (R201). -/
def wrapX (startX : Byte) (col : Nat) : Nat := (startX.toNat + col) % Config.screenW

/-- The screen row of a sprite's row (R201). -/
def wrapY (startY : Byte) (row : Nat) : Nat := (startY.toNat + row) % Config.screenH

end Sys2Proof.Machine
end

