-- ==== Sys2Proof/Machine/State.lean ====
section
/-! DEFINITION. The state of the machine as plain data (spec/10_state.md R20), why a step can stop, and the state after power-on (R37). -/

namespace Sys2Proof.Machine

/-- `memory` (R34, R60): the cells that differ from what an unlisted address reads as
(`Memory.background`), in the canonical form `Memory.wf`. -/
abbrev Memory := List Host.Cell

/-- The four error kinds of R260. -/
inductive ErrorKind where
  | romNotLoaded
  | invalidOpcode
  | stackOverflow
  | stackUnderflow
  deriving DecidableEq, Repr

/-- What the core last answered to `Step` (R127, R233): the model's own record of the result port.
Log entry 4. -/
inductive Reply where
  /-- No step since power-on or the last ROM load. -/
  | ready
  /-- `Executed(op)`: the word just executed, as fetched. -/
  | executed (op : Word)
  /-- `Halt`: outside the program bounds, or a self-jump (R265). -/
  | halt
  /-- `Error(kind)` (R260). -/
  | error (kind : ErrorKind)
  deriving DecidableEq, Repr

/-- The complete state of R20, then three fields of the model's own. The stack and the attached
framebuffer are views of `memory`, not state (R26, R33). -/
structure State where
  /-- `V[0..15]`, the general registers (R21); `V[15]` is VF (R22). -/
  v : Vector Byte 16
  /-- `FLAG[0..15]`, the flag registers (R32). -/
  flag : Vector Byte 16
  /-- `I`, the address register (R24). -/
  i : Word
  /-- `PC` (R23). -/
  pc : Word
  /-- `SP`, the number of occupied stack slots, 0 to 48 (R25). -/
  sp : Nat
  /-- `DT`, the delay timer (R27). -/
  dt : Byte
  /-- `ST`, the sound timer (R28). -/
  st : Byte
  /-- `keyState[0..15]`, true is pressed (R30). -/
  keyState : Vector Bool 16
  /-- `tickCounter`, unbounded (R29). -/
  tickCounter : Nat
  /-- `romLoaded` (R31). -/
  romLoaded : Bool
  /-- `romSize`, unbounded (R31). -/
  romSize : Nat
  /-- `fbDetached`: whether the framebuffer is `dfb` and no longer a view of memory (R33). -/
  fbDetached : Bool
  /-- `DFB[0..254]`, the detached framebuffer (R33). -/
  dfb : Vector Byte 255
  /-- `memory`, 4096 bytes (R34). -/
  memory : Memory
  /-- The parameters of R7: fixed for one machine, never written. Log entry 2. -/
  params : Params
  /-- The model's own: how many random draws `CXNN` has consumed (R162). Log entry 3. -/
  draws : Nat
  /-- The model's own: the answer to the last `Step` (R233). Log entry 4. -/
  reply : Reply
  deriving DecidableEq, Repr

/-- An error of R260 ends the run: the fault gives the kind, and the state at that moment as R269
describes it (log entry 5). That state is not final: it is no next state, and a step from the state of
a fatal error is refused (R270). -/
inductive Fault where
  /-- R261. Raised by the step, before anything else is examined, while no ROM has been loaded. Safe:
  the spec names the error. `LoadROM` recovers it. -/
  | romNotLoaded (after : State)
  /-- R262. Raised by dispatch for a word of R96. Fatal. Safe for the kind. The state it carries is the
  spec's decision D16, where the source calls the subsequent state undefined: a claim resting on it is unsafe. -/
  | invalidOpcode (after : State)
  /-- R263. Raised by `2NNN` with SP >= 48, and by `00EE` with SP = 0 when STACK_ERROR_CONFLATED.
  Fatal. Safe for the kind; the state it carries is decision D16. -/
  | stackOverflow (after : State)
  /-- R264. Raised by `00EE` with SP = 0. Fatal. Safe for the kind; the state it carries is decision D16. -/
  | stackUnderflow (after : State)
  deriving DecidableEq, Repr

/-- Which error occurred (R260). -/
def Fault.kind : Fault → ErrorKind
  | .romNotLoaded _ => .romNotLoaded
  | .invalidOpcode _ => .invalidOpcode
  | .stackOverflow _ => .stackOverflow
  | .stackUnderflow _ => .stackUnderflow

/-- The state at the moment of the error (R269). -/
def Fault.after : Fault → State
  | .romNotLoaded t => t
  | .invalidOpcode t => t
  | .stackOverflow t => t
  | .stackUnderflow t => t

/-- Why the model gives a step no meaning. -/
inductive Refusal where
  /-- Raised by an arm of `exec` whose instruction has no meaning yet. Safe. No arm raises it. -/
  | notModelled (mnemonic : String)
  /-- Raised by the step when the last one ended in a fatal error and no `LoadROM` came between: the
  spec says that a model refuses it (R270, D16). Safe. -/
  | stepAfterFatalError (kind : ErrorKind)
  deriving DecidableEq, Repr

/-- The detached framebuffer with every pixel dark. -/
def blankDfb : Vector Byte 255 := Vector.replicate 255 0

/-- `PowerOn()` (R37, R290) for given parameters. The font is what unlisted memory reads as. -/
def State.powerOn (p : Params) : State where
  v := Vector.replicate 16 0
  flag := Vector.replicate 16 0
  i := 0
  pc := 0x200
  sp := 0
  dt := 0
  st := 0
  keyState := Vector.replicate 16 false
  tickCounter := 0
  romLoaded := false
  romSize := 0
  fbDetached := false
  dfb := blankDfb
  memory := []
  params := p
  draws := 0
  reply := .ready

/-- The machine right after power-on, with the default parameters of R7. -/
def State.reset : State := State.powerOn Params.default

end Sys2Proof.Machine
end

