-- ==== Sys2Proof/Machine/Ops.lean ====
section
/-! DEFINITION. The named operations over memory and registers: the memory and its font, the register accessors, the stack and framebuffer views (spec/20_memory.md), fetch, the halt tests and `Tick()` (spec/40_step_cycle.md), and the raising of an error (spec/60_exceptions.md R269). -/

namespace Sys2Proof.Machine

/-! ### Memory -/

/-- Font glyphs 0 to 7 (R80). Glyph 0 is the source's; the others are PRESUMED, log entry 6. -/
def fontLow : List Byte :=
  [ 0xF0, 0x90, 0x90, 0x90, 0xF0
  , 0x20, 0x60, 0x20, 0x20, 0x70
  , 0xF0, 0x10, 0xF0, 0x80, 0xF0
  , 0xF0, 0x10, 0xF0, 0x10, 0xF0
  , 0x90, 0x90, 0xF0, 0x10, 0x10
  , 0xF0, 0x80, 0xF0, 0x10, 0xF0
  , 0xF0, 0x80, 0xF0, 0x90, 0xF0
  , 0xF0, 0x10, 0x20, 0x40, 0x40 ]

/-- Font glyphs 8 to F (R80). PRESUMED, log entry 6. -/
def fontHigh : List Byte :=
  [ 0xF0, 0x90, 0xF0, 0x90, 0xF0
  , 0xF0, 0x90, 0xF0, 0x10, 0xF0
  , 0xF0, 0x90, 0xF0, 0x90, 0x90
  , 0xE0, 0x90, 0xE0, 0x90, 0xE0
  , 0xF0, 0x80, 0x80, 0x80, 0xF0
  , 0xE0, 0x90, 0x90, 0x90, 0xE0
  , 0xF0, 0x80, 0xF0, 0x80, 0xF0
  , 0xF0, 0x80, 0xF0, 0x80, 0x80 ]

/-- What an address that memory does not list reads as: its power-on contents, the font at 0x000 to
0x04F and 0 above it (R37, R80, log entries 1 and 6). -/
def Memory.background (a : Nat) : Byte := (fontLow ++ fontHigh).getD a 0

/-- The byte of a cell. -/
def Memory.lookup : Memory → Nat → Byte
  | [], a => Memory.background a
  | (k, b) :: rest, a => if a = k then b else Memory.lookup rest a

/-- Sets the byte of a cell and keeps the canonical form: a byte equal to the background is not listed. -/
def Memory.store : Memory → Nat → Byte → Memory
  | [], a, b => if b = Memory.background a then [] else [(a, b)]
  | (k, c) :: rest, a, b =>
    if a < k then
      if b = Memory.background a then (k, c) :: rest else (a, b) :: (k, c) :: rest
    else if a = k then
      if b = Memory.background a then rest else (a, b) :: rest
    else (k, c) :: Memory.store rest a b

/-- The canonical form from address `lo` up: addresses rise strictly, stay below 4096, and no listed
byte is what the address reads as unlisted. -/
def Memory.wfFrom (lo : Nat) : Memory → Bool
  | [] => true
  | (k, b) :: rest =>
    decide (lo ≤ k) && decide (k < Config.memSize) && decide (b ≠ Memory.background k) &&
      Memory.wfFrom (k + 1) rest

/-- The canonical form of a memory. -/
def Memory.wf (m : Memory) : Bool := Memory.wfFrom 0 m

/-- `MemRead(addr, 1)` (R63): the byte at the address modulo 4096. -/
def Memory.read (m : Memory) (addr : Nat) : Byte := m.lookup (cellOf addr)

/-- `MemWrite(addr, 1, v)` (R63). -/
def Memory.write (m : Memory) (addr : Nat) (b : Byte) : Memory := m.store (cellOf addr) b

/-- Successive bytes stored from an address upward, in ascending order (R71, R292). -/
def Memory.writeList (m : Memory) (addr : Nat) : List Byte → Memory
  | [] => m
  | b :: bs => Memory.writeList (m.write addr b) (addr + 1) bs

/-- A run of zero bytes. -/
def zeroBytes (n : Nat) : List Byte := List.replicate n 0

namespace State

/-- `MemRead(addr, 1)` (R63). -/
def readByte (s : State) (addr : Nat) : Byte := s.memory.read addr

/-- `MemWrite(addr, 1, v)` (R63): no range is protected (R69). -/
def writeByte (s : State) (addr : Nat) (b : Byte) : State := { s with memory := s.memory.write addr b }

/-- Successive byte stores (R71). -/
def writeBytes (s : State) (addr : Nat) (bs : List Byte) : State :=
  { s with memory := s.memory.writeList addr bs }

/-! ### Registers -/

/-- Reads `V[r]` (R21). -/
def getV (s : State) (r : Reg) : Byte := s.v[r.val]

/-- Writes `V[r]` (R21); none of the sixteen is hardwired. -/
def setV (s : State) (r : Reg) (b : Byte) : State := { s with v := s.v.set r.val b }

/-- Reads `FLAG[r]` (R32). -/
def getFlag (s : State) (r : Reg) : Byte := s.flag[r.val]

/-- Writes `FLAG[r]` (R32). -/
def setFlag (s : State) (r : Reg) (b : Byte) : State := { s with flag := s.flag.set r.val b }

/-- Writes `PC` (R23). -/
def setPc (s : State) (a : Word) : State := { s with pc := a }

/-- Writes `I` (R24). -/
def setI (s : State) (a : Word) : State := { s with i := a }

/-- Whether key `k` is pressed (R30). -/
def keyDown (s : State) (k : Fin 16) : Bool := s.keyState[k.val]

/-- Whether any key is pressed: the scan of `FX0A` (R212). -/
def anyKeyDown (s : State) : Bool := (List.finRange 16).any s.keyDown

/-- Skips the next instruction when the condition holds: `PC <- (PC + 2) mod 65536` (R154). -/
def skipIf (s : State) (c : Bool) : State := if c then s.setPc (s.pc + 2) else s

/-- Writes a result to `V[X]` and then the flag to VF: when X is F the flag remains (R170 (c)). -/
def setResultThenFlag (s : State) (x : Reg) (result flag : Byte) : State := (s.setV x result).setV regF flag

/-! ### The stack view -/

/-- `StackRead(s)` (R66): a stack word in the order STACK_BYTE_ORDER. -/
def stackRead (s : State) (slot : Nat) : Word :=
  match s.params.stackByteOrder with
  | .little => s.readByte (slotAddr slot + 1) ++ s.readByte (slotAddr slot)
  | .big => s.readByte (slotAddr slot) ++ s.readByte (slotAddr slot + 1)

/-- `StackWrite(s, w)` (R66). -/
def stackWrite (s : State) (slot : Nat) (w : Word) : State :=
  match s.params.stackByteOrder with
  | .little => s.writeBytes (slotAddr slot) [loByte w, hiByte w]
  | .big => s.writeBytes (slotAddr slot) [hiByte w, loByte w]

/-! ### The framebuffer view -/

/-- `FbRead(fi)` (R68): byte 255 of the detached buffer does not exist and reads 0 (log entry 13). -/
def fbRead (s : State) (fi : Nat) : Byte :=
  if s.fbDetached then s.dfb[fi]?.getD 0 else s.readByte (Config.fbBase + fi)

/-- `FbWrite(fi, b)` (R68): a write to byte 255 of the detached buffer is dropped. -/
def fbWrite (s : State) (fi : Nat) (b : Byte) : State :=
  if s.fbDetached then { s with dfb := s.dfb.setIfInBounds fi b }
  else s.writeByte (Config.fbBase + fi) b

/-- `FbClear()` (R68). -/
def fbClear (s : State) : State :=
  if s.fbDetached then { s with dfb := blankDfb }
  else s.writeBytes Config.fbBase (zeroBytes Config.fbSize)

/-- Whether pixel (x, y) of the picture is lit (R67). -/
def pixel (s : State) (x y : Nat) : Bool := pixelCollides (s.fbRead (pixelByte x y)) (pixelMask x)

/-! ### Fetch, halt tests and the timer cadence -/

/-- The word at an address, `MemRead(a, 2)`: big-endian, each byte's address modulo 4096 (R63, R64). -/
def wordAt (s : State) (a : Word) : Word := s.readByte (byteAddr a 0) ++ s.readByte (byteAddr a 1)

/-- The word fetch reads: memory afresh at every step (R76, R123). -/
def fetchWord (s : State) : Word := s.wordAt s.pc

/-- Fetch's advance, `PC <- (PC + 2) mod 65536` (R123). -/
def advance (s : State) : State := s.setPc (s.pc + 2)

/-- The program bounds test on PC, over unbounded integers (R122). -/
def inBounds (s : State) : Bool :=
  decide (Config.entryBase ≤ s.pc.toNat) && decide (s.pc.toNat < Config.entryBase + s.romSize)

/-- The dead-loop guard's test (R124): a `1NNN` fetched from the address `a` that it names. -/
def isSelfJump (op a : Word) : Bool :=
  decide (fieldF op = 0x1#4) && decide ((fieldNNN op).toNat = a.toNat)

/-- `Tick()` (R126). -/
def tick (s : State) : State :=
  let n := s.tickCounter + 1
  if n % Config.tickDivisor = 0 then
    { s with
      dt := countDown s.dt
      st := countDown s.st
      tickCounter := if s.dt = 0 ∧ s.st = 0 then n else 0 }
  else { s with tickCounter := n }

/-- Records the answer to a step (R127, R233). -/
def answer (s : State) (r : Reply) : State := { s with reply := r }

/-! ### Errors -/

/-- The fatal error the last step ended in, if it did and no ROM load came since (R270). RomNotLoaded
is not fatal: a step after it is allowed (R233). -/
def fatalError (s : State) : Option ErrorKind :=
  match s.reply with
  | .error .romNotLoaded => none
  | .error k => some k
  | .ready | .executed _ | .halt => none

/-- Taking an error (R269): nothing is saved, nothing vectors, no mode changes; the step ends and the
kind goes to the host, with the state as it stands. PC is past the faulting instruction, since fetch
has advanced it, and no tick runs. -/
def raise (s : State) : ErrorKind → Host.Outcome State Fault Refusal
  | .romNotLoaded => .fault (.romNotLoaded (s.answer (.error .romNotLoaded)))
  | .invalidOpcode => .fault (.invalidOpcode (s.answer (.error .invalidOpcode)))
  | .stackOverflow => .fault (.stackOverflow (s.answer (.error .stackOverflow)))
  | .stackUnderflow => .fault (.stackUnderflow (s.answer (.error .stackUnderflow)))

/-- The kind `00EE` reports on an empty stack: with STACK_ERROR_CONFLATED it is StackOverflow (R264). -/
def underflowKind (s : State) : ErrorKind :=
  if s.params.stackErrorConflated then .stackOverflow else .stackUnderflow

end State

end Sys2Proof.Machine
end

