-- ==== Sys2Proof/Machine/Alu.lean ====
section
/-! DEFINITION. Register-register arithmetic and logic, family 8 (spec/44_alu.md R170 to R180). Operations 0 to 3 leave VF alone (R170 (b)). The order of the two writes is R170 (c), log entry 11. -/

namespace Sys2Proof.Machine

/-- `8XY0` LD VX, VY (R171). -/
def execLdReg (x y : Reg) (s : State) : Host.Outcome State Fault Refusal :=
  .next (s.setV x (s.getV y))

/-- `8XY1` OR VX, VY (R172). -/
def execOrReg (x y : Reg) (s : State) : Host.Outcome State Fault Refusal :=
  .next (s.setV x (s.getV x ||| s.getV y))

/-- `8XY2` AND VX, VY (R173). -/
def execAndReg (x y : Reg) (s : State) : Host.Outcome State Fault Refusal :=
  .next (s.setV x (s.getV x &&& s.getV y))

/-- `8XY3` XOR VX, VY (R174). -/
def execXorReg (x y : Reg) (s : State) : Host.Outcome State Fault Refusal :=
  .next (s.setV x (s.getV x ^^^ s.getV y))

/-- `8XY4` ADD VX, VY (R175). -/
def execAddReg (x y : Reg) (s : State) : Host.Outcome State Fault Refusal :=
  .next (s.setResultThenFlag x (sumByte (s.getV x) (s.getV y)) (carryFlag (s.getV x) (s.getV y)))

/-- `8XY5` SUB VX, VY (R176): VF is 1 when there is no borrow. -/
def execSubReg (x y : Reg) (s : State) : Host.Outcome State Fault Refusal :=
  .next (s.setResultThenFlag x (diffByte (s.getV x) (s.getV y)) (noBorrowFlag (s.getV x) (s.getV y)))

/-- `8XY6` SHR VX, VY (R177): the flag comes from V[X] and is written first; the value shifted is V[Y], read after it. -/
def execShrReg (x y : Reg) (s : State) : Host.Outcome State Fault Refusal :=
  let s₁ := s.setV regF (lowBitFlag (s.getV x))
  .next (s₁.setV x (s₁.getV y >>> 1))

/-- `8XY7` SUBN VX, VY (R178). -/
def execSubnReg (x y : Reg) (s : State) : Host.Outcome State Fault Refusal :=
  .next (s.setResultThenFlag x (diffByte (s.getV y) (s.getV x)) (noBorrowFlag (s.getV y) (s.getV x)))

/-- `8XYE` SHL VX, VY (R179): as `8XY6`, with bit 7 and a left shift. -/
def execShlReg (x y : Reg) (s : State) : Host.Outcome State Fault Refusal :=
  let s₁ := s.setV regF (highBitFlag (s.getV x))
  .next (s₁.setV x (s₁.getV y <<< 1))

end Sys2Proof.Machine
end

