-- ==== Sys2Proof/Machine/Display.lean ====
section
/-! DEFINITION. The display instructions (spec/46_display.md R200 to R203). -/

namespace Sys2Proof.Machine

/-- `00E0` CLS (R200). -/
def execCls (s : State) : Host.Outcome State Fault Refusal :=
  .next s.fbClear

/-- One pixel of a sprite (R201): a set sprite bit toggles the picture at its wrapped position, and VF
becomes 1 when that turns a lit pixel off. -/
def State.drawPixel (startX startY : Byte) (row : Nat) (b : Byte) (s : State) (col : Nat) : State :=
  if spriteBit b col then
    let fi := pixelByte (wrapX startX col) (wrapY startY row)
    let m := pixelMask (wrapX startX col)
    let old := s.fbRead fi
    (if pixelCollides old m then s.setV regF 1 else s).fbWrite fi (old ^^^ m)
  else s

/-- One row of a sprite (R201): its byte is read when the row is drawn (R202 (d), log entry 12), then
columns 0 to 7 in order. -/
def State.drawRow (startX startY : Byte) (s : State) (row : Nat) : State :=
  (List.range 8).foldl (State.drawPixel startX startY row (s.readByte (byteAddr s.i row))) s

/-- The rows of a sprite in ascending order (R201). -/
def State.drawSprite (startX startY : Byte) (s : State) (n : Nat) : State :=
  (List.range n).foldl (State.drawRow startX startY) s

/-- `DXYN` DRW VX, VY, N (R201): the coordinates are read before VF is cleared (R202 (c), log entry 11). -/
def execDrw (x y : Reg) (n : Nat) (s : State) : Host.Outcome State Fault Refusal :=
  .next ((s.setV regF 0).drawSprite (s.getV x) (s.getV y) n)

end Sys2Proof.Machine
end

