-- ==== Sys2Proof/Machine/Flow.lean ====
section
/-! DEFINITION. No-op, jump, call and return (spec/41_control_flow.md R140 to R145). Each meaning is entered with PC already past the instruction (R11). -/

namespace Sys2Proof.Machine

/-- `0000` NOP (R140): nothing beyond the fetch and the tick of the step. -/
def execNop (s : State) : Host.Outcome State Fault Refusal :=
  .next s

/-- `00EE` RET (R141): tests the empty stack before changing anything; the slot is not cleared. -/
def execRet (s : State) : Host.Outcome State Fault Refusal :=
  if s.sp = 0 then s.raise s.underflowKind
  else .next { s with sp := s.sp - 1, pc := s.stackRead (s.sp - 1) }

/-- `1NNN` JP NNN (R142). A jump to its own address never comes here: the step halts first (R124). -/
def execJp (nnn : Addr) (s : State) : Host.Outcome State Fault Refusal :=
  .next (s.setPc (zext16 nnn))

/-- `2NNN` CALL NNN (R143): tests the full stack before writing; pushes the advanced PC. -/
def execCall (nnn : Addr) (s : State) : Host.Outcome State Fault Refusal :=
  if s.sp ≥ Config.stackSlots then s.raise .stackOverflow
  else .next { s.stackWrite s.sp s.pc with sp := s.sp + 1, pc := zext16 nnn }

/-- `BNNN` JP V0, NNN (R144): the sum is not reduced to 12 bits. -/
def execJpV0 (nnn : Addr) (s : State) : Host.Outcome State Fault Refusal :=
  .next (s.setPc (zext16 nnn + (s.getV 0).setWidth 16))

end Sys2Proof.Machine
end

