-- ==== Sys2Proof/Machine/Index.lean ====
section
/-! DEFINITION. The address register and memory (spec/45_index_memory.md R190 to R196). -/

namespace Sys2Proof.Machine

/-- `ANNN` LD I, NNN (R190). -/
def execLdI (nnn : Addr) (s : State) : Host.Outcome State Fault Refusal :=
  .next (s.setI (zext16 nnn))

/-- `FX1E` ADD I, VX (R191): wraps modulo 65536, VF not written. -/
def execAddI (x : Reg) (s : State) : Host.Outcome State Fault Refusal :=
  .next (s.setI (s.i + (s.getV x).setWidth 16))

/-- `FX29` LD F, VX (R192): the whole value of V[X] times 5. -/
def execLdFont (x : Reg) (s : State) : Host.Outcome State Fault Refusal :=
  .next (s.setI (glyphAddr (s.getV x)))

/-- `FX33` LD B, VX (R193): hundreds, tens, ones at I, I+1, I+2; I is unchanged. -/
def execLdBcd (x : Reg) (s : State) : Host.Outcome State Fault Refusal :=
  .next (s.writeBytes (byteAddr s.i 0) (bcdDigits (s.getV x)))

/-- `FX55` LD [I], VX (R194): stores V0 to VX upward from I, then advances I past them. -/
def execStoreRegs (x : Reg) (s : State) : Host.Outcome State Fault Refusal :=
  .next { s.writeBytes (byteAddr s.i 0) ((regRange x).map s.getV) with i := s.i + BitVec.ofNat 16 (x.val + 1) }

/-- Loads the listed registers, register `k` from the byte `k` past I, in the order of the list (R195). -/
def State.loadFrom (s : State) (ks : List Reg) : State :=
  ks.foldl (fun t k => t.setV k (s.readByte (byteAddr s.i k.val))) s

/-- `FX65` LD VX, [I] (R195): loads V0 to VX from I upward, then advances I past them. -/
def execLoadRegs (x : Reg) (s : State) : Host.Outcome State Fault Refusal :=
  .next ((s.loadFrom (regRange x)).setI (s.i + BitVec.ofNat 16 (x.val + 1)))

end Sys2Proof.Machine
end

