-- ==== Sys2Proof/Machine/Keypad.lean ====
section
/-! DEFINITION. The keypad instructions (spec/47_keypad.md R210 to R213): the key state is sampled when the instruction executes. -/

namespace Sys2Proof.Machine

/-- `EX9E` SKP VX (R210, R213). -/
def execSkp (x : Reg) (s : State) : Host.Outcome State Fault Refusal :=
  .next (s.skipIf (s.keyDown (keyIndex (s.getV x))))

/-- `EXA1` SKNP VX (R211, R213). -/
def execSknp (x : Reg) (s : State) : Host.Outcome State Fault Refusal :=
  .next (s.skipIf (!s.keyDown (keyIndex (s.getV x))))

/-- `FX0A` LD VX, K (R212): V[X] receives 1, never the key number; with no key pressed PC goes back to this instruction. -/
def execLdVKey (x : Reg) (s : State) : Host.Outcome State Fault Refusal :=
  if s.anyKeyDown then .next (s.setV x 1)
  else .next (s.setPc (s.pc - 2))

end Sys2Proof.Machine
end

