-- ==== Sys2Proof/Machine/Timers.lean ====
section
/-! DEFINITION. The timers and the flag registers (spec/48_timers_flags.md R220 to R224). The countdown is `State.tick`. -/

namespace Sys2Proof.Machine

/-- `FX07` LD VX, DT (R220). -/
def execLdVDt (x : Reg) (s : State) : Host.Outcome State Fault Refusal :=
  .next (s.setV x s.dt)

/-- `FX15` LD DT, VX (R221): tickCounter is not reset. -/
def execLdDtV (x : Reg) (s : State) : Host.Outcome State Fault Refusal :=
  .next { s with dt := s.getV x }

/-- `FX18` LD ST, VX (R222). -/
def execLdStV (x : Reg) (s : State) : Host.Outcome State Fault Refusal :=
  .next { s with st := s.getV x }

/-- Copies the listed V registers into the flag registers of the same numbers (R223). -/
def State.saveFrom (s : State) (ks : List Reg) : State := ks.foldl (fun t k => t.setFlag k (s.getV k)) s

/-- Copies the listed flag registers into the V registers of the same numbers (R224). -/
def State.restoreFrom (s : State) (ks : List Reg) : State := ks.foldl (fun t k => t.setV k (s.getFlag k)) s

/-- `FX75` LD R, VX (R223): X may be any register, all sixteen flag registers being there. -/
def execSaveFlags (x : Reg) (s : State) : Host.Outcome State Fault Refusal :=
  .next (s.saveFrom (regRange x))

/-- `FX85` LD VX, R (R224). -/
def execRestoreFlags (x : Reg) (s : State) : Host.Outcome State Fault Refusal :=
  .next (s.restoreFrom (regRange x))

end Sys2Proof.Machine
end

