-- ==== Sys2Proof/Machine/Cycle.lean ====
section
/-! DEFINITION. The step cycle (spec/40_step_cycle.md R120): the checks, fetch, the dead-loop guard, dispatch and the tick, in their fixed order. Step.lean only calls it. -/

namespace Sys2Proof.Machine

/-- The instruction a word stands for, decoded as the two bytes memory holds it in (R64, R94). -/
def decodeFetched (op : Word) : Option Instr :=
  match decodeBytes (wordBytes op) with
  | .ok (i, _) => some i
  | .error _ => none

/-- `Execute(op)` (R125): the instruction's meaning, or InvalidOpcode (R262). -/
def execute (op : Word) (s : State) : Host.Outcome State Fault Refusal :=
  match decodeFetched op with
  | some i => exec i s
  | none => s.raise .invalidOpcode

/-- The end of a step (R120 parts 6 and 7): an executed instruction ticks and is reported; an error ends
the step before the tick (R125). -/
def retire (op : Word) : Host.Outcome State Fault Refusal → Host.Outcome State Fault Refusal
  | .next t => .next (t.tick.answer (.executed op))
  | .fault f => .fault f
  | .refused r => .refused r

/-- The step past the RomNotLoaded check, the bounds check and the fetch (R120 parts 3 to 7). Halt is an
answer and no stop: the state is a next state (R128, log entry 4). -/
def fetchExecute (s : State) : Host.Outcome State Fault Refusal :=
  if State.isSelfJump s.fetchWord s.pc then .next (s.advance.answer .halt)
  else retire s.fetchWord (execute s.fetchWord s.advance)

/-- `Step` (R120): RomNotLoaded first (R121), then the bounds (R122). A step after a fatal error is
refused (R270). -/
def cycle (s : State) : Host.Outcome State Fault Refusal :=
  match s.fatalError with
  | some k => .refused (.stepAfterFatalError k)
  | none =>
    if s.romLoaded = false then s.raise .romNotLoaded
    else if s.inBounds then fetchExecute s
    else .next (s.answer .halt)

/-- Where a program word stands for the next step to fetch it: PC, or the entry point when PC lies below
every program (R122). -/
def fetchPlace (s : State) : Word := if Config.entryBase ≤ s.pc.toNat then s.pc else 0x200

/-- A machine whose next step fetches these bytes at `fetchPlace`: the program is loaded and reaches past
them, and no fatal error is pending. Log entry 16. -/
def placeProgram (s : State) (bs : List Byte) : State :=
  { s.writeBytes (byteAddr (fetchPlace s) 0) bs with
    pc := fetchPlace s
    romLoaded := true
    romSize := max s.romSize ((fetchPlace s).toNat - Config.entryBase + bs.length)
    reply := .ready }

end Sys2Proof.Machine
end

