-- ==== Sys2Proof/Machine/Step.lean ====
section
/-! DEFINITION. The step of the machine (spec/40_step_cycle.md R120), and the state whose next step runs a given word. -/

namespace Sys2Proof.Machine

/-- One `Step` (R120). -/
def step (s : State) : Host.Outcome State Fault Refusal := cycle s

/-- The state whose next step fetches and runs the instruction with bits `w`, numbered as
spec/opcode_table.json numbers them. It stands for a `LoadROM` of that word (log entry 16). -/
def State.withFetchWord (s : State) (nbits w : Nat) : State := placeProgram s (tableWordBytes nbits w)

end Sys2Proof.Machine
end

