-- ==== Sys2Proof/Machine/HostOps.lean ====
section
/-! DEFINITION. What the host can do to the core between steps (spec/50_host_interface.md R230): power-on, ROM load and its reset, key and flag writes, and the observations. -/

namespace Sys2Proof.Machine

namespace State

/-- `ResetPC()` (R232). -/
def resetPc (s : State) : State := s.setPc (BitVec.ofNat 16 Config.entryBase)

/-- `SetKey(k, pressed)` (R231). -/
def setKey (s : State) (k : Fin 16) (pressed : Bool) : State :=
  { s with keyState := s.keyState.set k.val pressed }

/-- `WriteFlag(i, v)` (R235). -/
def writeFlag (s : State) (k : Fin 16) (b : Byte) : State := s.setFlag k b

/-- `Reset()` (R291): it runs only inside a ROM load. PC, the keys and the rest of memory stay. -/
def resetMachine (s : State) : State :=
  let t := { s with
    sp := 0, i := 0, dt := 0, st := 0, tickCounter := 0
    v := Vector.replicate 16 0, flag := Vector.replicate 16 0 }
  t.fbClear.writeBytes Config.stackBase (zeroBytes (2 * Config.stackSlots))

/-- `Reset()` when a ROM was loaded before (R294), and nothing on the first load. -/
def resetUnlessFirst (s : State) : State := if s.romLoaded then s.resetMachine else s

/-- Whether a ROM of this length detaches the framebuffer and is not copied (R293, C1). -/
def oversized (len : Nat) : Bool := decide (Config.entryBase + len ≥ Config.fbDetachLimit)

/-- `LoadROM(bytes)` (R292): PC is not touched (R295), and a detached framebuffer stays detached
(R293 (b), log entry 14). A pending fatal error ends here (R270). -/
def loadRom (s : State) (bs : List Byte) : State :=
  let t := { s.resetUnlessFirst with romLoaded := true, romSize := bs.length, reply := .ready }
  if oversized bs.length then { t with fbDetached := true, dfb := blankDfb }
  else t.writeBytes Config.entryBase bs

/-- `ReadFramebuffer()` (R234): 256 bytes of memory, or the 255 detached ones. -/
def readFramebuffer (s : State) : List Byte :=
  if s.fbDetached then s.dfb.toList
  else (List.range Config.fbSize).map fun fi => s.readByte (Config.fbBase + fi)

/-- `ReadDT()` (R234). -/
def readDt (s : State) : Byte := s.dt

/-- `ReadST()` (R234): a tone would sound while it is above 0, outside the core (R28). -/
def readSt (s : State) : Byte := s.st

/-- `ReadFlag(i)` (R234). -/
def readFlag (s : State) (k : Fin 16) : Byte := s.getFlag k

/-- `ReadMemory(addr)` (R234). -/
def readMemory (s : State) (addr : Nat) : Byte := s.readByte addr

end State

/-- The status code of an answer (R260). -/
def Reply.code : Reply → Option Nat
  | .ready => none
  | .executed _ => some 0
  | .halt => some 1
  | .error .romNotLoaded => some 2
  | .error .invalidOpcode => some 3
  | .error .stackOverflow => some 4
  | .error .stackUnderflow => some 5

/-- What the source's `executeNext()` returns (R127): the opcode, or the halt sentinel -1. An error is
no return value. -/
def Reply.returnValue : Reply → Option Int
  | .ready => none
  | .executed op => some op.toNat
  | .halt => some (-1)
  | .error _ => none

/-- Whether the driver redraws after this answer: the executed word's top nibble is 0xD (R234). -/
def Reply.promptsRedraw : Reply → Bool
  | .executed op => decide (fieldF op = 0xD#4)
  | .ready | .halt | .error _ => false

/-- The operations of R230 that change state, other than `Step`. -/
inductive HostOp where
  /-- Construction: every element of R37 takes its power-on value. -/
  | powerOn
  | loadRom (bytes : List Byte)
  | resetPc
  | setKey (k : Fin 16) (pressed : Bool)
  | writeFlag (k : Fin 16) (b : Byte)
  deriving DecidableEq, Repr

/-- The effect of a host operation (R230): atomic, between steps (R236). Power-on keeps the machine's
parameters and goes on in the sequence of draws, which is no state of the core (R238). -/
def HostOp.apply : HostOp → State → State
  | .powerOn, s => { State.powerOn s.params with draws := s.draws }
  | .loadRom bs, s => s.loadRom bs
  | .resetPc, s => s.resetPc
  | .setKey k p, s => s.setKey k p
  | .writeFlag k b, s => s.writeFlag k b

end Sys2Proof.Machine
end

