-- ==== Sys2Proof/Machine/System.lean ====
section
/-! DEFINITION. The core and its host together (spec/00_scope.md R6): one interleaving of whole host operations and whole steps. -/

namespace Sys2Proof.Machine

/-- What happens next at the boundary of R230. -/
inductive Transaction where
  | host (op : HostOp)
  | coreStep
  deriving DecidableEq, Repr

/-- The state at the boundary after a step (R127, R269): the next state, or the state an error leaves,
which only a ROM load makes usable again (R270). No claim rests on the state of a fatal error (R269, log
entry 5). A refused step has none. -/
def settled : Host.Outcome State Fault Refusal → Option State
  | .next t => some t
  | .fault f => some f.after
  | .refused _ => none

/-- One transaction. -/
def Transaction.run : Transaction → State → Option State
  | .host op, s => some (op.apply s)
  | .coreStep, s => settled (step s)

/-- A sequence of transactions (R6); it ends at a refused step. -/
def runTransactions : List Transaction → State → Option State
  | [], s => some s
  | t :: ts, s =>
    match t.run s with
    | some s' => runTransactions ts s'
    | none => none

end Sys2Proof.Machine
end

