-- ==== Sys2Proof/Safety.lean ====
section
/-! DEFINITION. The terms claims are stated in: which states are good, which steps dispatch, which runs are safe and final, what an instruction may change, and the picture a sprite draws. -/

namespace Sys2Proof.Machine

/-! ### Good states -/

/-- What holds of every state a machine reaches short of a fatal error (R36): SP stays within its slots (a),
memory keeps its canonical form, an attached framebuffer leaves the detached buffer blank, and before the first
ROM load there is no program and no detached framebuffer (R31, R33). -/
structure State.Inv (s : State) : Prop where
  sp_le : s.sp ≤ Config.stackSlots
  memory_wf : s.memory.wf = true
  dfb_blank : s.fbDetached = false → s.dfb = blankDfb
  unloaded : s.romLoaded = false → s.romSize = 0 ∧ s.fbDetached = false

/-- A step from this state passes the refusal, the RomNotLoaded check, the bounds check and the
dead-loop guard, and so dispatches the word at PC (R120). -/
structure State.Dispatches (s : State) : Prop where
  running : s.fatalError = none
  loaded : s.romLoaded = true
  inside : s.inBounds = true
  noSelfJump : State.isSelfJump s.fetchWord s.pc = false

/-! ### Errors -/

/-- The state of an error that a claim may rest on: that of RomNotLoaded, which the source itself gives
(R121). Of a fatal error a claim says which error occurred and nothing more (R269, log entry 5). -/
def Fault.certain : Fault → Option State
  | .romNotLoaded t => some t
  | .invalidOpcode _ | .stackOverflow _ | .stackUnderflow _ => none

/-- Whether a sequence of transactions meets no fatal error on its way, nor starts or ends in one. -/
def meetsNoFatalError : List Transaction → State → Bool
  | [], s => s.fatalError.isNone
  | t :: ts, s =>
    s.fatalError.isNone &&
      match t.run s with
      | some s' => meetsNoFatalError ts s'
      | none => true

/-! ### Safe runs -/

/-- A run of `n` steps that meets no error and no refusal. -/
def SafeRun (n : Nat) (s t : State) : Prop := Host.Core.run Sys2Proof.core n s = .next t

/-- A program has ended (R265). The state of an error is never final (R269): a claim about a program's
end is about states the last step answered `Halt` for. -/
def State.Final (s : State) : Prop := s.reply = .halt

/-! ### Frames -/

/-- Every address reads as before. -/
def SameMemory (s t : State) : Prop := ∀ a, t.readByte a = s.readByte a

/-- Every address outside the given cells reads as before. -/
def SameMemoryOutside (cells : Nat → Prop) (s t : State) : Prop :=
  ∀ a, ¬ cells (cellOf a) → t.readByte a = s.readByte a

/-- Nothing changed but the V registers of the list. -/
def OnlyVChanged (rs : List Reg) (s t : State) : Prop :=
  t = { s with v := t.v } ∧ (∀ r, r ∉ rs → t.getV r = s.getV r) ∧ SameMemory s t

/-- Nothing changed but PC. -/
def OnlyPcChanged (s t : State) : Prop := t = { s with pc := t.pc } ∧ SameMemory s t

/-- Nothing changed but I. -/
def OnlyIChanged (s t : State) : Prop := t = { s with i := t.i } ∧ SameMemory s t

/-- What any `LoadROM` makes of the registers (R294, R295): zero when a ROM was loaded before, kept on the
first load; PC and the keys kept on both. -/
structure LoadedRegisters (s t : State) : Prop where
  v : ∀ r, t.getV r = if s.romLoaded then 0 else s.getV r
  flag : ∀ r, t.getFlag r = if s.romLoaded then 0 else s.getFlag r
  i : t.i = if s.romLoaded then 0 else s.i
  sp : t.sp = if s.romLoaded then 0 else s.sp
  dt : t.dt = if s.romLoaded then 0 else s.dt
  st : t.st = if s.romLoaded then 0 else s.st
  tickCounter : t.tickCounter = if s.romLoaded then 0 else s.tickCounter
  pc : t.pc = s.pc
  keyState : t.keyState = s.keyState

/-- The cells of `n` bytes from an address upward, each modulo 4096 (R62). -/
def cellsFrom (base : Word) (n : Nat) (c : Nat) : Prop := ∃ k, k < n ∧ c = cellOf (byteAddr base k)

end Sys2Proof.Machine

namespace Sys2Proof

open Machine (regF regRange)

/-! ### What each instruction may change -/

/-- The V registers an instruction writes: its destination, and VF where R22 names it. -/
def Instr.writesV : Instr → List Reg
  | .ldImm x _ | .addImm x _ | .rnd x _ | .ldVDt x | .ldVKey x => [x]
  | .ldReg x _ | .orReg x _ | .andReg x _ | .xorReg x _ => [x]
  | .addReg x _ | .subReg x _ | .shrReg x _ | .subnReg x _ | .shlReg x _ => [x, regF]
  | .drw _ _ _ => [regF]
  | .loadRegs x | .restoreFlags x => regRange x
  | .nop | .cls | .ret | .jp _ | .call _ | .seImm _ _ | .sneImm _ _ | .seReg _ _ | .sneReg _ _ => []
  | .ldI _ | .jpV0 _ | .skp _ | .sknp _ | .ldDtV _ | .ldStV _ | .addI _ | .ldFont _ | .ldBcd _ => []
  | .storeRegs _ | .saveFlags _ => []

/-- Whether an instruction writes I (R24). -/
def Instr.writesI : Instr → Bool
  | .ldI _ | .addI _ | .ldFont _ | .storeRegs _ | .loadRegs _ => true
  | .nop | .cls | .ret | .jp _ | .call _ | .seImm _ _ | .sneImm _ _ | .seReg _ _ | .sneReg _ _ => false
  | .ldImm _ _ | .addImm _ _ | .rnd _ _ | .ldReg _ _ | .orReg _ _ | .andReg _ _ | .xorReg _ _ => false
  | .addReg _ _ | .subReg _ _ | .shrReg _ _ | .subnReg _ _ | .shlReg _ _ | .jpV0 _ | .drw _ _ _ => false
  | .skp _ | .sknp _ | .ldVDt _ | .ldVKey _ | .ldDtV _ | .ldStV _ | .ldBcd _ => false
  | .saveFlags _ | .restoreFlags _ => false

/-- Whether an instruction changes SP: the call and the return (R25). -/
def Instr.writesSp : Instr → Bool
  | .call _ | .ret => true
  | .nop | .cls | .jp _ | .seImm _ _ | .sneImm _ _ | .seReg _ _ | .sneReg _ _ => false
  | .ldImm _ _ | .addImm _ _ | .rnd _ _ | .ldReg _ _ | .orReg _ _ | .andReg _ _ | .xorReg _ _ => false
  | .addReg _ _ | .subReg _ _ | .shrReg _ _ | .subnReg _ _ | .shlReg _ _ | .jpV0 _ | .drw _ _ _ => false
  | .skp _ | .sknp _ | .ldVDt _ | .ldVKey _ | .ldDtV _ | .ldStV _ | .ldBcd _ => false
  | .ldI _ | .addI _ | .ldFont _ | .storeRegs _ | .loadRegs _ => false
  | .saveFlags _ | .restoreFlags _ => false

/-- Whether an instruction may set PC beyond the fetch's advance (R23). -/
def Instr.writesPc : Instr → Bool
  | .call _ | .ret | .jp _ | .jpV0 _ | .seImm _ _ | .sneImm _ _ | .seReg _ _ | .sneReg _ _ => true
  | .skp _ | .sknp _ | .ldVKey _ => true
  | .nop | .cls | .ldImm _ _ | .addImm _ _ | .rnd _ _ => false
  | .ldReg _ _ | .orReg _ _ | .andReg _ _ | .xorReg _ _ => false
  | .addReg _ _ | .subReg _ _ | .shrReg _ _ | .subnReg _ _ | .shlReg _ _ | .drw _ _ _ => false
  | .ldVDt _ | .ldDtV _ | .ldStV _ | .ldBcd _ => false
  | .ldI _ | .addI _ | .ldFont _ | .storeRegs _ | .loadRegs _ => false
  | .saveFlags _ | .restoreFlags _ => false

/-- Whether an instruction writes memory or the framebuffer: the writers of the table of R78. -/
def Instr.storesMemory : Instr → Bool
  | .call _ | .cls | .drw _ _ _ | .ldBcd _ | .storeRegs _ => true
  | .nop | .ret | .jp _ | .seImm _ _ | .sneImm _ _ | .seReg _ _ | .sneReg _ _ => false
  | .ldImm _ _ | .addImm _ _ | .rnd _ _ | .ldReg _ _ | .orReg _ _ | .andReg _ _ | .xorReg _ _ => false
  | .addReg _ _ | .subReg _ _ | .shrReg _ _ | .subnReg _ _ | .shlReg _ _ | .jpV0 _ => false
  | .skp _ | .sknp _ | .ldVDt _ | .ldVKey _ | .ldDtV _ | .ldStV _ => false
  | .ldI _ | .addI _ | .ldFont _ | .loadRegs _ | .saveFlags _ | .restoreFlags _ => false

end Sys2Proof

namespace Sys2Proof.Machine

/-! ### The picture -/

/-- Whether the sprite that `DXYN` draws from this state has a set pixel at (px, py) of the screen
(R201): some row and column of it wrap to that place and its byte lights that column. -/
def spriteLights (s : State) (x y : Reg) (n px py : Nat) : Prop :=
  ∃ row col, row < n ∧ col < 8 ∧ wrapX (s.getV x) col = px ∧ wrapY (s.getV y) row = py ∧
    spriteBit (s.readByte (byteAddr s.i row)) col = true

/-- Whether one row of a sprite at these coordinates has a set pixel at (px, py), by the sprite byte this
state holds (R201). -/
def rowLights (s : State) (startX startY : Byte) (row px py : Nat) : Prop :=
  ∃ col, col < 8 ∧ wrapX startX col = px ∧ wrapY startY row = py ∧
    spriteBit (s.readByte (byteAddr s.i row)) col = true

/-- Whether the pixel has storage: the detached buffer lacks the last eight pixels (R68). -/
def hasStorage (s : State) (px py : Nat) : Prop := s.fbDetached = true → pixelByte px py < Config.dfbSize

/-- The sprite's own bytes lie outside the picture, so drawing does not change what is still to be
drawn (R201 (e)). -/
def spriteApart (s : State) (n : Nat) : Prop :=
  s.fbDetached = true ∨ ∀ row, row < n → cellOf (byteAddr s.i row) < Config.fbBase

/-- The cells of the framebuffer bytes under the sprite (R78). -/
def underSprite (s : State) (x y : Reg) (n c : Nat) : Prop :=
  ∃ row col, row < n ∧ col < 8 ∧
    c = Config.fbBase + pixelByte (wrapX (s.getV x) col) (wrapY (s.getV y) row)

/-! ### A tick counter modulo 6 -/

/-- The state with the counter a modulo-6 implementation would hold (R130). -/
def State.modSix (s : State) : State := { s with tickCounter := s.tickCounter % Config.tickDivisor }

/-- A change of state carried into an outcome. Of an error it keeps what a claim may say of it. -/
def mapOutcome (f : State → State) :
    Host.Outcome State Fault Refusal → Host.Outcome State (ErrorKind × Option State) Refusal
  | .next t => .next (f t)
  | .fault e => .fault (e.kind, e.certain.map f)
  | .refused r => .refused r

end Sys2Proof.Machine
end

