-- ==== Sys2Proof/Certificates/Slice0/Obligations.lean ====
section
/-! DEFINITION. The statements about the model, for the provers. Each instruction's meaning is entered with PC already past the instruction (spec/00_scope.md R11), so `exec` leaves PC where the next instruction stands unless the instruction moves it. -/

open Sys2Proof Sys2Proof.Machine

/-! ### Encoding -/

/-- R91 to R95: the decoder gives back every well-formed instruction from its encoding, each operand at
every value the field admits. Family 0 is matched on all its bits, the spec's decision D11 (R97). -/
def Obligations.DecodeGivesBackEveryEncodedInstruction : Prop :=
  ∀ i : Instr, i.wf = true → decode (encode i) = .ok i

/-- R94, R95: the encoder gives back every word the decoder accepts, so no bit of a valid word is
dropped, and no two words stand for one instruction. That family 0 is matched on all its bits is the
spec's decision D11 (R97, log entry 9). -/
def Obligations.EncodeGivesBackEveryDecodedWord : Prop :=
  ∀ (op : Word) (i : Instr), decode op = .ok i → encode i = op ∧ i.wf = true

/-- R94 to R96 with the spec's decision D11: a word decodes exactly when it selects a row of the opcode
map, the row is its instruction's own, and no word selects two rows. -/
def Obligations.DecodeAcceptsExactlyTheOpcodeMap : Prop :=
  ∀ op : Word,
    ((∃ i, decode op = .ok i) ↔ ∃ r ∈ opcodeRows, r.selects op = true) ∧
    (∀ i, decode op = .ok i → i.row.selects op = true) ∧
    (∀ r ∈ opcodeRows, ∀ q ∈ opcodeRows, r.selects op = true → q.selects op = true → r = q)

/-- R64, R95: words written out from the opcode map decode to the instructions they stand for. -/
def Obligations.WrittenOutWordsDecode : Prop :=
  decodeBytes [0x00, 0xEE] = .ok (.ret, []) ∧
  decodeBytes [0x12, 0x34] = .ok (.jp 0x234, []) ∧
  decodeBytes [0x3A, 0x7B] = .ok (.seImm 10 0x7B, []) ∧
  decodeBytes [0x81, 0x2E] = .ok (.shlReg 1 2, []) ∧
  decodeBytes [0xD0, 0x15] = .ok (.drw 0 1 5, []) ∧
  decodeBytes [0xE5, 0xA1] = .ok (.sknp 5, []) ∧
  decodeBytes [0xFB, 0x65] = .ok (.loadRegs 11, []) ∧
  decodeBytes [0x81, 0x28] = .error (.invalidOpcode 0x8128)

/-! ### The step -/

/-- R120, R123, R125: a step that passes the checks runs the instruction the two bytes at PC decode to,
with PC past it; an instruction that completes is followed by one tick and reported, and an error ends
the step without a tick. -/
def Obligations.StepRunsTheDecodedInstruction : Prop :=
  ∀ (s : State) (i : Instr), s.Dispatches →
    decodeBytes [s.readByte (byteAddr s.pc 0), s.readByte (byteAddr s.pc 1)] = .ok (i, []) →
    (∀ t, exec i { s with pc := s.pc + 2 } = .next t →
      step s = .next { t.tick with
        reply := .executed (s.readByte (byteAddr s.pc 0) ++ s.readByte (byteAddr s.pc 1)) }) ∧
    (∀ f, exec i { s with pc := s.pc + 2 } = .fault f → step s = .fault f)

/-- R262 with R96: a step that dispatches reports InvalidOpcode for exactly the words that select no row
of the opcode map. Which words these are in family 0 is the spec's decision D11. -/
def Obligations.StepReportsExactlyTheInvalidWords : Prop :=
  ∀ s : State, s.Dispatches →
    ((∃ t, step s = .fault (.invalidOpcode t)) ↔ ∀ r ∈ opcodeRows, r.selects s.fetchWord = false)

/-- R121: with no ROM loaded a step raises RomNotLoaded, wherever PC is, and changes no state. The field
`reply` is the model's record of the answer, not state of the spec (log entry 4); `fatalError` is none
unless the last step ended in a fatal error (R270). -/
def Obligations.StepWithoutRomRaisesRomNotLoaded : Prop :=
  ∀ s : State, s.fatalError = none → s.romLoaded = false →
    step s = .fault (.romNotLoaded { s with reply := .error .romNotLoaded })

/-- R122: a step from outside the program bounds answers Halt and changes no state; a PC inside them
is fetched from, also the last byte of the program. The field `reply` is the model's (log entry 4). -/
def Obligations.StepHaltsOutsideTheProgram : Prop :=
  ∀ s : State, s.fatalError = none → s.romLoaded = true →
    (¬ (0x200 ≤ s.pc.toNat ∧ s.pc.toNat < 0x200 + s.romSize) →
      step s = .next { s with reply := .halt }) ∧
    (0x200 ≤ s.pc.toNat ∧ s.pc.toNat < 0x200 + s.romSize → step s = fetchExecute s)

/-- R128 (the spec's decision D22, log entry 4): a step after Halt is evaluated afresh, so after a bounds
halt the machine halts again for ever, and nothing else changes. -/
def Obligations.BoundsHaltRepeatsForEver : Prop :=
  ∀ (n : Nat) (s : State), s.fatalError = none → s.romLoaded = true →
    ¬ (0x200 ≤ s.pc.toNat ∧ s.pc.toNat < 0x200 + s.romSize) →
    SafeRun (n + 1) s { s with reply := .halt }

/-- R124: a `1NNN` fetched from its own target ends the step with Halt; the jump is not executed and
nothing ticks. That PC stays advanced is the spec's own inference ("PC stays advanced at `a + 2`"). -/
def Obligations.SelfJumpHalts : Prop :=
  ∀ (s : State) (nnn : Addr), s.fatalError = none → s.romLoaded = true → s.inBounds = true →
    s.fetchWord = 0x1#4 ++ nnn → nnn.toNat = s.pc.toNat →
    step s = .next { s with pc := s.pc + 2, reply := .halt }

/-- R260 to R264, R268: a step ends in an error exactly when the list gives it, RomNotLoaded before all
others: the condition of each kind. Decisions of the spec: which words of family 0 are outside the opcode map
(D11, log entry 9), that no error follows a pending fatal one, since that step is refused (D16, log entry 5),
and the kind of an empty stack by STACK_ERROR_CONFLATED (R264, D21, log entry 21). -/
def Obligations.StepErrorsAreExactlyTheListed : Prop :=
  ∀ s : State,
    ((∃ t, step s = .fault (.romNotLoaded t)) ↔ s.fatalError = none ∧ s.romLoaded = false) ∧
    ((∃ t, step s = .fault (.invalidOpcode t)) ↔
      s.Dispatches ∧ ∀ r ∈ opcodeRows, r.selects s.fetchWord = false) ∧
    ((∃ t, step s = .fault (.stackOverflow t)) ↔
      s.Dispatches ∧ (((∃ nnn, decode s.fetchWord = .ok (.call nnn)) ∧ 48 ≤ s.sp) ∨
        (decode s.fetchWord = .ok .ret ∧ s.sp = 0 ∧ s.params.stackErrorConflated = true))) ∧
    ((∃ t, step s = .fault (.stackUnderflow t)) ↔
      s.Dispatches ∧ decode s.fetchWord = .ok .ret ∧ s.sp = 0 ∧ s.params.stackErrorConflated = false)

/-- R270, R261 (the spec's decision D16, log entry 5): after RomNotLoaded a step is not refused; after an
error of any other kind it is, with that kind; and a ROM load makes the machine step again after each. -/
def Obligations.FatalErrorEndsTheRunUntilARomLoad : Prop :=
  ∀ (s : State) (f : Fault), step s = .fault f →
    (f.kind = .romNotLoaded → ∀ r, step f.after ≠ .refused r) ∧
    (f.kind ≠ .romNotLoaded → step f.after = .refused (.stepAfterFatalError f.kind)) ∧
    (∀ bs r, step (f.after.loadRom bs) ≠ .refused r)

/-- Every instruction has a meaning, and the one refusal is the one R270 names (the spec's decision
D16): a step after a fatal error. -/
def Obligations.StepRefusesOnlyAfterAFatalError : Prop :=
  ∀ (s : State) (r : Refusal),
    step s = .refused r ↔ ∃ k, s.fatalError = some k ∧ r = .stepAfterFatalError k

/-- The state made for a word fetches that word next: it dispatches unless the word is a jump to
itself, from every canonical memory (model's choice, log entry 16). -/
def Obligations.PlacedWordIsTheNextInstruction : Prop :=
  ∀ (s : State) (w : Nat), s.memory.wf = true → w < 65536 →
    (s.withFetchWord 16 w).fetchWord = BitVec.ofNat 16 w ∧
    (State.isSelfJump (BitVec.ofNat 16 w) (s.withFetchWord 16 w).pc = false →
      (s.withFetchWord 16 w).Dispatches)

/-! ### The timer cadence -/

/-- R126: `Tick()` counts, and on every count divisible by 6 decrements each timer that is above 0 and
clears the count if one was. -/
def Obligations.TickDecrementsOnEverySixthCount : Prop :=
  ∀ s : State,
    ((s.tickCounter + 1) % 6 ≠ 0 → s.tick = { s with tickCounter := s.tickCounter + 1 }) ∧
    ((s.tickCounter + 1) % 6 = 0 →
      s.tick.dt.toNat = s.dt.toNat - 1 ∧ s.tick.st.toNat = s.st.toNat - 1 ∧
      (0 < s.dt.toNat ∨ 0 < s.st.toNat → s.tick.tickCounter = 0) ∧
      (s.dt.toNat = 0 ∧ s.st.toNat = 0 → s.tick.tickCounter = s.tickCounter + 1) ∧
      s.tick = { s with dt := s.tick.dt, st := s.tick.st, tickCounter := s.tick.tickCounter })

/-- R129, R130: after any number of ticks each timer has fallen by the number of counts divisible by 6
that were passed, and stays at 0 once there. -/
def Obligations.TimersFallOncePerSixTicks : Prop :=
  ∀ (n : Nat) (s : State),
    (State.tick^[n] s).dt.toNat = s.dt.toNat - (s.tickCounter % 6 + n) / 6 ∧
    (State.tick^[n] s).st.toNat = s.st.toNat - (s.tickCounter % 6 + n) / 6

/-- R130 (the spec's own inference): a counter kept modulo 6 gives the same machine. A step commutes
with reducing the counter modulo 6: the next states, the errors by kind, with the state of RomNotLoaded, and
the refusals agree. -/
def Obligations.CounterModuloSixIsExact : Prop :=
  ∀ s : State, mapOutcome State.modSix (step s) = mapOutcome State.modSix (step s.modSix)

/-! ### Control flow -/

/-- R140: `0000` changes nothing, VF included; a step of it moves PC by 2 and ticks. -/
def Obligations.NopOnlyPassesByAndTicks : Prop :=
  decode 0x0000#16 = .ok .nop ∧
  (∀ s : State, exec .nop s = .next s) ∧
  (∀ s : State, s.Dispatches → s.fetchWord = 0x0000#16 →
    step s = .next { ({ s with pc := s.pc + 2 } : State).tick with reply := .executed 0x0000#16 })

/-- R142, R144: `1NNN` loads NNN into PC; `BNNN` loads NNN + V0, not reduced to 12 bits. Nothing else changes. -/
def Obligations.JumpsLoadPc : Prop :=
  ∀ (nnn : Addr) (s : State),
    (∃ t, exec (.jp nnn) s = .next t ∧ t.pc.toNat = nnn.toNat ∧ OnlyPcChanged s t) ∧
    (∃ t, exec (.jpV0 nnn) s = .next t ∧ t.pc.toNat = nnn.toNat + (s.getV 0).toNat ∧
      OnlyPcChanged s t)

/-- R143: `2NNN` pushes the advanced PC into slot SP, raises SP by 1 and jumps; at 48 occupied slots it
raises StackOverflow instead. That the slot is the bytes at 0xEA0 + 2*SP is the spec's reading D5, and
their order is the parameter STACK_BYTE_ORDER (R65, D4). -/
def Obligations.CallPushesTheReturnAddress : Prop :=
  ∀ (nnn : Addr) (s : State), s.memory.wf = true →
    (48 ≤ s.sp → ∃ f, exec (.call nnn) s = .fault (.stackOverflow f)) ∧
    (s.sp < 48 → ∃ t, exec (.call nnn) s = .next t ∧
      t.stackRead s.sp = s.pc ∧ t.sp = s.sp + 1 ∧ t.pc.toNat = nnn.toNat ∧
      t = { s with sp := t.sp, pc := t.pc, memory := t.memory } ∧
      SameMemoryOutside (fun c => c = slotAddr s.sp ∨ c = slotAddr s.sp + 1) s t ∧
      (s.params.stackByteOrder = .little →
        (t.readByte (0xEA0 + 2 * s.sp)).toNat = s.pc.toNat % 256 ∧
        (t.readByte (0xEA0 + 2 * s.sp + 1)).toNat = s.pc.toNat / 256) ∧
      (s.params.stackByteOrder = .big →
        (t.readByte (0xEA0 + 2 * s.sp)).toNat = s.pc.toNat / 256 ∧
        (t.readByte (0xEA0 + 2 * s.sp + 1)).toNat = s.pc.toNat % 256))

/-- R141: `00EE` lowers SP and loads PC from the slot it then names, all 16 bits, memory unchanged; with
an empty stack it raises StackUnderflow, or StackOverflow where the kinds are conflated (R264, D21). -/
def Obligations.ReturnPopsTheReturnAddress : Prop :=
  ∀ s : State,
    (s.sp = 0 → s.params.stackErrorConflated = false → ∃ f, exec .ret s = .fault (.stackUnderflow f)) ∧
    (s.sp = 0 → s.params.stackErrorConflated = true → ∃ f, exec .ret s = .fault (.stackOverflow f)) ∧
    (0 < s.sp → ∃ t, exec .ret s = .next t ∧ t.sp = s.sp - 1 ∧ t.pc = s.stackRead (s.sp - 1) ∧
      t = { s with sp := t.sp, pc := t.pc } ∧ SameMemory s t)

/-- R143 with spec/90_conflicts.md C9: a call and an immediate return leave PC past the call, SP as it
was, and nothing changed but the slot; in either byte order. -/
def Obligations.ReturnUndoesCall : Prop :=
  ∀ (nnn : Addr) (s : State), s.memory.wf = true → s.sp < 48 →
    ∃ t u, exec (.call nnn) s = .next t ∧ exec .ret t = .next u ∧ u.pc = s.pc ∧ u.sp = s.sp ∧
      u = { s with memory := u.memory } ∧
      SameMemoryOutside (fun c => c = slotAddr s.sp ∨ c = slotAddr s.sp + 1) s u

/-! ### Skips and the keypad -/

/-- R150 to R153: the four register skips advance PC by 2 more exactly when their comparison holds, and
change nothing else; a word of family 5 or 9 with a non-zero low nibble raises InvalidOpcode. -/
def Obligations.RegisterSkipsCompare : Prop :=
  ∀ (x y : Reg) (nn : Byte) (s : State),
    (decode (0x3#4 ++ regBits x ++ nn) = .ok (.seImm x nn) ∧
     ∃ t, exec (.seImm x nn) s = .next t ∧ OnlyPcChanged s t ∧
      t.pc.toNat = if s.getV x = nn then (s.pc.toNat + 2) % 65536 else s.pc.toNat) ∧
    (decode (0x4#4 ++ regBits x ++ nn) = .ok (.sneImm x nn) ∧
     ∃ t, exec (.sneImm x nn) s = .next t ∧ OnlyPcChanged s t ∧
      t.pc.toNat = if s.getV x = nn then s.pc.toNat else (s.pc.toNat + 2) % 65536) ∧
    (decode (0x5#4 ++ regBits x ++ regBits y ++ 0x0#4) = .ok (.seReg x y) ∧
     ∃ t, exec (.seReg x y) s = .next t ∧ OnlyPcChanged s t ∧
      t.pc.toNat = if s.getV x = s.getV y then (s.pc.toNat + 2) % 65536 else s.pc.toNat) ∧
    (decode (0x9#4 ++ regBits x ++ regBits y ++ 0x0#4) = .ok (.sneReg x y) ∧
     ∃ t, exec (.sneReg x y) s = .next t ∧ OnlyPcChanged s t ∧
      t.pc.toNat = if s.getV x = s.getV y then s.pc.toNat else (s.pc.toNat + 2) % 65536) ∧
    (∀ n : BitVec 4, n ≠ 0 →
      (∃ f, execute (0x5#4 ++ regBits x ++ regBits y ++ n) s = .fault (.invalidOpcode f)) ∧
      (∃ f, execute (0x9#4 ++ regBits x ++ regBits y ++ n) s = .fault (.invalidOpcode f)))

/-- R210, R211: the keypad skips test the key V[X] names. That a value above 15 names the key of its low
four bits is the spec's decision D12 (R213). -/
def Obligations.KeypadSkipsTestTheKey : Prop :=
  ∀ (x : Reg) (s : State) (k : Fin 16), k.val = (s.getV x).toNat % 16 →
    (∃ t, exec (.skp x) s = .next t ∧ OnlyPcChanged s t ∧
      t.pc.toNat = if s.keyState[k.val] then (s.pc.toNat + 2) % 65536 else s.pc.toNat) ∧
    (∃ t, exec (.sknp x) s = .next t ∧ OnlyPcChanged s t ∧
      t.pc.toNat = if s.keyState[k.val] then s.pc.toNat else (s.pc.toNat + 2) % 65536)

/-- R212: with any key pressed `FX0A` stores the value 1, whichever key it is; with none it only moves PC
back by 2. -/
def Obligations.KeyWaitStoresOneOrRewinds : Prop :=
  ∀ (x : Reg) (s : State),
    ((∃ k : Fin 16, s.keyState[k.val] = true) →
      ∃ t, exec (.ldVKey x) s = .next t ∧ (t.getV x).toNat = 1 ∧ OnlyVChanged [x] s t) ∧
    ((∀ k : Fin 16, s.keyState[k.val] = false) →
      ∃ t, exec (.ldVKey x) s = .next t ∧ t.pc.toNat = (s.pc.toNat + 65534) % 65536 ∧
        OnlyPcChanged s t)

/-- R212 (c) (the spec's own inference, D23): while no key is pressed a whole step of `FX0A` changes
nothing but the timers and the counter, so the timers count down while the machine waits. -/
def Obligations.WaitingStepOnlyTicks : Prop :=
  ∀ (x : Reg) (s : State), s.Dispatches → s.fetchWord = 0xF#4 ++ regBits x ++ 0x0A#8 →
    (∀ k : Fin 16, s.keyState[k.val] = false) →
    step s = .next { s.tick with reply := .executed s.fetchWord }

/-! ### Immediate and random -/

/-- R160, R161: `6XNN` loads NN; `7XNN` adds NN modulo 256. VF changes only as the destination; that
`7XNN` leaves it alone is the spec's reading of a silence (R161, log entry 19). -/
def Obligations.ImmediateLoadAndAdd : Prop :=
  ∀ (x : Reg) (nn : Byte) (s : State),
    (decode (0x6#4 ++ regBits x ++ nn) = .ok (.ldImm x nn) ∧
     ∃ t, exec (.ldImm x nn) s = .next t ∧ t.getV x = nn ∧ OnlyVChanged [x] s t) ∧
    (decode (0x7#4 ++ regBits x ++ nn) = .ok (.addImm x nn) ∧
     ∃ t, exec (.addImm x nn) s = .next t ∧
      (t.getV x).toNat = ((s.getV x).toNat + nn.toNat) % 256 ∧ OnlyVChanged [x] s t)

/-- R162 (the spec's decision D15): `CXNN` masks a draw that is free, so the statement holds for every
draw; one draw is consumed and nothing outside the mask is set. The count of draws is the model's (log entry 3). -/
def Obligations.RandomByteIsMasked : Prop :=
  ∀ (x : Reg) (nn : Byte) (s : State),
    ∃ t, exec (.rnd x nn) s = .next t ∧ t.getV x = Config.randomByte s.draws &&& nn ∧
      t.getV x &&& ~~~nn = 0 ∧ t.draws = s.draws + 1 ∧
      t = { s with v := t.v, draws := t.draws } ∧ (∀ r, r ≠ x → t.getV r = s.getV r) ∧ SameMemory s t

/-! ### Arithmetic and logic -/

/-- R171 to R174: copy, OR, AND and XOR, bit by bit, write the destination alone. That they leave VF
alone is the spec's own inference (R170 (b)). -/
def Obligations.LogicWritesOnlyTheDestination : Prop :=
  ∀ (x y : Reg) (s : State),
    (∃ t, exec (.ldReg x y) s = .next t ∧ t.getV x = s.getV y ∧ OnlyVChanged [x] s t) ∧
    (∃ t, exec (.orReg x y) s = .next t ∧ OnlyVChanged [x] s t ∧
      ∀ k < 8, (t.getV x).getLsbD k = ((s.getV x).getLsbD k || (s.getV y).getLsbD k)) ∧
    (∃ t, exec (.andReg x y) s = .next t ∧ OnlyVChanged [x] s t ∧
      ∀ k < 8, (t.getV x).getLsbD k = ((s.getV x).getLsbD k && (s.getV y).getLsbD k)) ∧
    (∃ t, exec (.xorReg x y) s = .next t ∧ OnlyVChanged [x] s t ∧
      ∀ k < 8, (t.getV x).getLsbD k = ((s.getV x).getLsbD k ^^ (s.getV y).getLsbD k))

/-- R175: `8XY4` stores the sum modulo 256 and sets VF to the carry; when X is F the carry remains. -/
def Obligations.AddSetsCarry : Prop :=
  ∀ (x y : Reg) (s : State),
    decode (0x8#4 ++ regBits x ++ regBits y ++ 0x4#4) = .ok (.addReg x y) ∧
    ∃ t, exec (.addReg x y) s = .next t ∧ OnlyVChanged [x, regF] s t ∧
      (x ≠ regF → (t.getV x).toNat = ((s.getV x).toNat + (s.getV y).toNat) % 256) ∧
      (t.getV regF).toNat = if (s.getV x).toNat + (s.getV y).toNat > 255 then 1 else 0

/-- R176, R178: the two subtractions store the difference modulo 256 and set VF to 1 exactly when it is
not negative, equality included; when X is F the flag remains. -/
def Obligations.SubtractSetsNoBorrow : Prop :=
  ∀ (x y : Reg) (s : State),
    (decode (0x8#4 ++ regBits x ++ regBits y ++ 0x5#4) = .ok (.subReg x y) ∧
     ∃ t, exec (.subReg x y) s = .next t ∧ OnlyVChanged [x, regF] s t ∧
      (x ≠ regF → (t.getV x).toNat = ((s.getV x).toNat + 256 - (s.getV y).toNat) % 256) ∧
      (t.getV regF).toNat = if (s.getV y).toNat ≤ (s.getV x).toNat then 1 else 0) ∧
    (decode (0x8#4 ++ regBits x ++ regBits y ++ 0x7#4) = .ok (.subnReg x y) ∧
     ∃ t, exec (.subnReg x y) s = .next t ∧ OnlyVChanged [x, regF] s t ∧
      (x ≠ regF → (t.getV x).toNat = ((s.getV y).toNat + 256 - (s.getV x).toNat) % 256) ∧
      (t.getV regF).toNat = if (s.getV x).toNat ≤ (s.getV y).toNat then 1 else 0)

/-- R177, R179: the shifts take the flag from the old V[X] and the value from V[Y]. The cases of
register F follow the order the source writes, the spec's decision D13 (R170 (c)): with X = F the shifted value
remains, and with Y = F and X not F the flag just written is what is shifted. -/
def Obligations.ShiftsTakeFlagFromXAndValueFromY : Prop :=
  ∀ (x y : Reg) (s : State),
    (∃ t, exec (.shrReg x y) s = .next t ∧ OnlyVChanged [x, regF] s t ∧
      (x ≠ regF → (t.getV regF).toNat = (s.getV x).toNat % 2) ∧
      (y ≠ regF → (t.getV x).toNat = (s.getV y).toNat / 2) ∧
      (y = regF → (t.getV x).toNat = 0)) ∧
    (∃ t, exec (.shlReg x y) s = .next t ∧ OnlyVChanged [x, regF] s t ∧
      (x ≠ regF → (t.getV regF).toNat = (s.getV x).toNat / 128) ∧
      (y ≠ regF → (t.getV x).toNat = (s.getV y).toNat * 2 % 256) ∧
      (y = regF → (t.getV x).toNat = (s.getV x).toNat / 128 * 2))

/-! ### The address register and memory -/

/-- R190 to R192: `ANNN` loads I, `FX1E` adds V[X] modulo 65536, `FX29` loads five times the whole of
V[X]. That `FX1E` leaves VF alone is the spec's own inference. -/
def Obligations.AddressRegisterLoads : Prop :=
  ∀ (x : Reg) (nnn : Addr) (s : State),
    (∃ t, exec (.ldI nnn) s = .next t ∧ t.i.toNat = nnn.toNat ∧ OnlyIChanged s t) ∧
    (∃ t, exec (.addI x) s = .next t ∧ t.i.toNat = (s.i.toNat + (s.getV x).toNat) % 65536 ∧
      OnlyIChanged s t) ∧
    (∃ t, exec (.ldFont x) s = .next t ∧ t.i.toNat = (s.getV x).toNat * 5 ∧ OnlyIChanged s t)

/-- R193: `FX33` stores the decimal digits of V[X] at I, I+1 and I+2 and changes nothing else. That I stays
is the spec's own inference, and addresses modulo 4096 are its decision D3 (R62). -/
def Obligations.BcdDigitsAreStored : Prop :=
  ∀ (x : Reg) (s : State), s.memory.wf = true →
    ∃ t, exec (.ldBcd x) s = .next t ∧ t = { s with memory := t.memory } ∧
      (t.readByte (byteAddr s.i 0)).toNat = (s.getV x).toNat / 100 ∧
      (t.readByte (byteAddr s.i 1)).toNat = (s.getV x).toNat / 10 % 10 ∧
      (t.readByte (byteAddr s.i 2)).toNat = (s.getV x).toNat % 10 ∧
      SameMemoryOutside (cellsFrom s.i 3) s t

/-- R194: `FX55` stores V0 to VX at I to I+X, inclusive, advances I by X+1, and changes nothing else.
Addresses modulo 4096 are the spec's decision D3 (R62). -/
def Obligations.RegistersAreStoredFromI : Prop :=
  ∀ (x : Reg) (s : State), s.memory.wf = true →
    ∃ t, exec (.storeRegs x) s = .next t ∧ t = { s with memory := t.memory, i := t.i } ∧
      (∀ k : Reg, k ≤ x → t.readByte (byteAddr s.i k.val) = s.getV k) ∧
      t.i.toNat = (s.i.toNat + x.val + 1) % 65536 ∧
      SameMemoryOutside (cellsFrom s.i (x.val + 1)) s t

/-- R195: `FX65` loads V0 to VX from I to I+X, inclusive, advances I by X+1, and changes nothing else; the
registers above X keep their values. Addresses modulo 4096 are the spec's decision D3 (R62). -/
def Obligations.RegistersAreLoadedFromI : Prop :=
  ∀ (x : Reg) (s : State),
    ∃ t, exec (.loadRegs x) s = .next t ∧ t = { s with v := t.v, i := t.i } ∧
      (∀ k : Reg, k ≤ x → t.getV k = s.readByte (byteAddr s.i k.val)) ∧
      (∀ k : Reg, x < k → t.getV k = s.getV k) ∧
      t.i.toNat = (s.i.toNat + x.val + 1) % 65536 ∧ SameMemory s t

/-- R76 (the spec's own inference, log entry 24): two neighbouring bytes that `FX55` stores are the word a
fetch at their address reads next. Addresses modulo 4096 are its decision D3 (R62, log entry 8). -/
def Obligations.StoredBytesAreFetched : Prop :=
  ∀ (x : Reg) (s t : State) (j k : Reg), s.memory.wf = true → exec (.storeRegs x) s = .next t →
    k.val = j.val + 1 → k ≤ x →
    t.wordAt (s.i + BitVec.ofNat 16 j.val) = s.getV j ++ s.getV k

/-! ### The display -/

/-- R200: `00E0` makes every pixel dark in either framebuffer mode, VF unchanged; attached, it clears the
cells 0xF00 to 0xFFF and no other, and detached, memory stays. -/
def Obligations.ClearScreenDarkensEveryPixel : Prop :=
  ∀ s : State, s.memory.wf = true →
    ∃ t, exec .cls s = .next t ∧ t = { s with memory := t.memory, dfb := t.dfb } ∧
      (∀ fi, fi < 256 → t.fbRead fi = 0) ∧ (∀ px py, px < 64 → py < 32 → t.pixel px py = false) ∧
      (s.fbDetached = false → t.dfb = s.dfb ∧ SameMemoryOutside (fun c => 0xF00 ≤ c) s t ∧
        ∀ c, 0xF00 ≤ c → c < 4096 → t.readByte c = 0) ∧
      (s.fbDetached = true → SameMemory s t)

/-- R201, R78: `DXYN` completes for every N and may change VF and the framebuffer bytes under the sprite,
nothing else: I, the other registers and every other byte stay, and with N = 0 nothing is drawn and VF is 0.
The place is by the coordinates of before VF is cleared, the spec's decision D13 (R202 (c), log entry 11). -/
def Obligations.DrawChangesOnlyTheFlagAndTheSpritesPlace : Prop :=
  ∀ (x y : Reg) (n : Nat) (s : State), s.memory.wf = true →
    ∃ t, exec (.drw x y n) s = .next t ∧
      t = { s with v := t.v, memory := t.memory, dfb := t.dfb } ∧
      (∀ r, r ≠ regF → t.getV r = s.getV r) ∧
      (t.getV regF = 0 ∨ t.getV regF = 1) ∧
      (s.fbDetached = false → t.dfb = s.dfb ∧ SameMemoryOutside (underSprite s x y n) s t) ∧
      (s.fbDetached = true → SameMemory s t ∧
        ∀ fi, fi < 255 → ¬ underSprite s x y n (0xF00 + fi) → t.dfb[fi]? = s.dfb[fi]?) ∧
      (n = 0 → t.getV regF = 0 ∧ SameMemory s t ∧ t.dfb = s.dfb)

/-- R201: drawing toggles exactly the pixels the sprite lights, each wrapped on its own, and leaves the
others; a pixel without storage stays dark (R68, D10). Bit 7 as the leftmost column is the spec's decision D14
(log entry 12), and coordinates read before VF is cleared its decision D13 (R202 (c), log entry 11).
The sprite's bytes lie outside the picture (R201 (e)); `DrawReadsEachRowWhenItIsDrawn` is about any sprite. -/
def Obligations.DrawTogglesExactlyTheSprite : Prop :=
  ∀ (x y : Reg) (n : Nat) (s : State), s.memory.wf = true → n < 16 → spriteApart s n →
    ∃ t, exec (.drw x y n) s = .next t ∧
      ∀ px py, px < 64 → py < 32 →
        (hasStorage s px py →
          (spriteLights s x y n px py → t.pixel px py = !s.pixel px py) ∧
          (¬ spriteLights s x y n px py → t.pixel px py = s.pixel px py)) ∧
        (¬ hasStorage s px py → t.pixel px py = false)

/-- R201: VF is 1 exactly when a pixel the sprite lights was lit before, else 0. Bit 7 as the leftmost
column is the spec's decision D14 (R202 (a), presumed, log entry 12), and coordinates read before VF is cleared
its decision D13 (R202 (c), log entry 11). The sprite's bytes lie outside the picture. -/
def Obligations.DrawReportsCollision : Prop :=
  ∀ (x y : Reg) (n : Nat) (s : State), s.memory.wf = true → n < 16 → spriteApart s n →
    ∃ t, exec (.drw x y n) s = .next t ∧
      ((∃ px py, px < 64 ∧ py < 32 ∧ spriteLights s x y n px py ∧ s.pixel px py = true) →
        t.getV regF = 1) ∧
      ((∀ px py, px < 64 → py < 32 → spriteLights s x y n px py → s.pixel px py = false) →
        t.getV regF = 0)

/-- R201 (d): drawing a sprite twice at one place restores the picture, and the second draw reports a
collision exactly when the first lit a pixel. Bit 7 as the leftmost column is the spec's decision D14 (R202 (a),
presumed, log entry 12), and coordinates read before VF is cleared its decision D13 (R202 (c), log entry 11). The
sprite's bytes lie outside the picture. -/
def Obligations.DrawingTwiceRestoresThePicture : Prop :=
  ∀ (x y : Reg) (n : Nat) (s t : State), s.memory.wf = true → n < 16 → spriteApart s n →
    exec (.drw x y n) s = .next t → t.getV x = s.getV x → t.getV y = s.getV y →
    ∃ u, exec (.drw x y n) t = .next u ∧
      (∀ px py, px < 64 → py < 32 → u.pixel px py = s.pixel px py) ∧
      (u.getV regF = 1 ↔ ∃ px py, px < 64 ∧ py < 32 ∧ spriteLights s x y n px py ∧
        t.pixel px py = true)

/-- R201 (e), R202 (d) (the spec's decision D14): whatever the sprite overlaps, one row more toggles
the pixels that row lights, by its byte as it stands once the rows above it are drawn, and collisions accumulate.
The coordinates are those of before VF is cleared, its decision D13 (R202 (c), log entry 11). -/
def Obligations.DrawReadsEachRowWhenItIsDrawn : Prop :=
  ∀ (x y : Reg) (n : Nat) (s : State), s.memory.wf = true →
    ∃ t u, exec (.drw x y n) s = .next t ∧ exec (.drw x y (n + 1)) s = .next u ∧
      (∀ px py, px < 64 → py < 32 → hasStorage s px py →
        (rowLights t (s.getV x) (s.getV y) n px py → u.pixel px py = !t.pixel px py) ∧
        (¬ rowLights t (s.getV x) (s.getV y) n px py → u.pixel px py = t.pixel px py)) ∧
      (u.getV regF = 1 ↔ t.getV regF = 1 ∨ ∃ px py, px < 64 ∧ py < 32 ∧
        rowLights t (s.getV x) (s.getV y) n px py ∧ t.pixel px py = true)

/-! ### Timers and flag registers -/

/-- R220 to R222: `FX07` reads DT, `FX15` and `FX18` set DT and ST; nothing else changes, the counter
included. -/
def Obligations.TimerMoves : Prop :=
  ∀ (x : Reg) (s : State),
    (decode (0xF#4 ++ regBits x ++ 0x07#8) = .ok (.ldVDt x) ∧
     ∃ t, exec (.ldVDt x) s = .next t ∧ t.getV x = s.dt ∧ OnlyVChanged [x] s t) ∧
    (decode (0xF#4 ++ regBits x ++ 0x15#8) = .ok (.ldDtV x) ∧
     ∃ t, exec (.ldDtV x) s = .next t ∧ t.dt = s.getV x ∧ t = { s with dt := t.dt } ∧ SameMemory s t) ∧
    (decode (0xF#4 ++ regBits x ++ 0x18#8) = .ok (.ldStV x) ∧
     ∃ t, exec (.ldStV x) s = .next t ∧ t.st = s.getV x ∧ t = { s with st := t.st } ∧ SameMemory s t)

/-- R220 to R222 with R126: a step of `FX07` reads DT before its own tick, and a step of `FX15` or `FX18`
sets its timer before it, so the value set falls at once when the count reaches a multiple of 6. -/
def Obligations.TimerStepsTickAfterwards : Prop :=
  ∀ (x : Reg) (s : State), s.Dispatches →
    (s.fetchWord = 0xF#4 ++ regBits x ++ 0x07#8 →
      ∃ t, step s = .next t ∧ t.getV x = s.dt ∧
        t.dt.toNat = s.dt.toNat - (if (s.tickCounter + 1) % 6 = 0 then 1 else 0)) ∧
    (s.fetchWord = 0xF#4 ++ regBits x ++ 0x15#8 →
      ∃ t, step s = .next t ∧
        t.dt.toNat = (s.getV x).toNat - (if (s.tickCounter + 1) % 6 = 0 then 1 else 0)) ∧
    (s.fetchWord = 0xF#4 ++ regBits x ++ 0x18#8 →
      ∃ t, step s = .next t ∧
        t.st.toNat = (s.getV x).toNat - (if (s.tickCounter + 1) % 6 = 0 then 1 else 0))

/-- R223, R224: `FX75` copies V0 to VX into the flag registers and `FX85` copies them back, inclusive, for
every X; the registers above X and everything else stay. -/
def Obligations.FlagRegistersSaveAndRestore : Prop :=
  ∀ (x : Reg) (s : State),
    (decode (0xF#4 ++ regBits x ++ 0x75#8) = .ok (.saveFlags x) ∧
     ∃ t, exec (.saveFlags x) s = .next t ∧ t = { s with flag := t.flag } ∧ SameMemory s t ∧
      (∀ k : Reg, k ≤ x → t.getFlag k = s.getV k) ∧ (∀ k : Reg, x < k → t.getFlag k = s.getFlag k)) ∧
    (decode (0xF#4 ++ regBits x ++ 0x85#8) = .ok (.restoreFlags x) ∧
     ∃ t, exec (.restoreFlags x) s = .next t ∧ t = { s with v := t.v } ∧ SameMemory s t ∧
      (∀ k : Reg, k ≤ x → t.getV k = s.getFlag k) ∧ (∀ k : Reg, x < k → t.getV k = s.getV k))

/-! ### Rules of the whole machine -/

/-- R21 to R25, R27, R28, R32: whatever the instruction, a register changes only if the rules name that
instruction as its writer. -/
def Obligations.RegistersChangeOnlyByTheirWriters : Prop :=
  ∀ (i : Instr) (s t : State), exec i s = .next t →
    (∀ r, r ∉ i.writesV → t.getV r = s.getV r) ∧
    (i.writesI = false → t.i = s.i) ∧
    (i.writesSp = false → t.sp = s.sp) ∧
    (i.writesPc = false → t.pc = s.pc) ∧
    ((∀ x, i ≠ .ldDtV x) → t.dt = s.dt) ∧
    ((∀ x, i ≠ .ldStV x) → t.st = s.st) ∧
    ((∀ x, i ≠ .saveFlags x) → t.flag = s.flag) ∧
    t.tickCounter = s.tickCounter

/-- R78: an instruction that the table does not list as a writer leaves all of memory and both
framebuffers as they were. -/
def Obligations.MemoryChangesOnlyByTheListedWriters : Prop :=
  ∀ (i : Instr) (s t : State), exec i s = .next t → i.storesMemory = false →
    SameMemory s t ∧ t.memory = s.memory ∧ t.dfb = s.dfb ∧ (∀ fi, t.fbRead fi = s.fbRead fi)

/-- R271 with R30, R31, R33: no step changes the keys, the record of the loaded ROM or the framebuffer
mode, nor the parameters (the model's own, log entry 2): a step that completes, and RomNotLoaded (R121). Of
the state of a fatal error it says nothing, as R269 orders (the spec's decision D16, log entry 5). -/
def Obligations.NoStepChangesWhatOnlyTheHostMay : Prop :=
  ∀ s t : State, (step s = .next t ∨ ∃ f, step s = .fault f ∧ f.certain = some t) →
    t.keyState = s.keyState ∧ t.romLoaded = s.romLoaded ∧ t.romSize = s.romSize ∧
    t.fbDetached = s.fbDetached ∧ t.params = s.params

/-- R36: every step that completes keeps the invariant of good states, and so does RomNotLoaded (R121). The
canonical memory in it is the model's (log entry 1). Of the state of a fatal error it says nothing, as R269
orders (the spec's decision D16, log entry 5). -/
def Obligations.StepKeepsTheInvariant : Prop :=
  ∀ s : State, s.Inv →
    (∀ t, step s = .next t → t.Inv) ∧ (∀ f t, step s = .fault f → f.certain = some t → t.Inv)

/-- The invariant of good states holds at power-on, for every value of the parameters. -/
def Obligations.PowerOnMeetsTheInvariant : Prop :=
  State.reset.Inv ∧ ∀ p : Params, (State.powerOn p).Inv

/-- R230: every host operation keeps the invariant of good states. -/
def Obligations.HostOperationsKeepTheInvariant : Prop :=
  ∀ (op : HostOp) (s : State), s.Inv → (op.apply s).Inv

/-- R6: so every state that host operations and steps reach from power-on is a good state, up to the first
fatal error, of whose state nothing is claimed (R269, the spec's decision D16, log entry 5). Power-on among the
host operations, in the middle of a sequence, is the model's (log entry 18). -/
def Obligations.EveryReachedStateIsGood : Prop :=
  ∀ (ts : List Transaction) (p : Params) (s : State),
    runTransactions ts (State.powerOn p) = some s →
    meetsNoFatalError ts (State.powerOn p) = true → s.Inv

/-- Memories in canonical form that read alike everywhere are the same data (the model's form of R60). -/
def Obligations.CanonicalMemoriesThatReadAlikeAreEqual : Prop :=
  ∀ m m' : Memory, m.wf = true → m'.wf = true → (∀ a, m.read a = m'.read a) → m = m'

/-! ### Power-on, ROM load and the host -/

/-- R37, R290: after power-on PC is 0x200, no ROM is loaded, font glyph 0 lies at address 0, and
everything else outside the font is zero or false, romSize and the detached buffer included. The zeros are the
spec's decisions D1 and D9 (log entries 1 and 14). -/
def Obligations.PowerOnValues : Prop :=
  ∀ p : Params,
    (State.powerOn p).pc = 0x200 ∧ (State.powerOn p).romLoaded = false ∧
    (List.range 5).map (State.powerOn p).readByte = [0xF0, 0x90, 0x90, 0x90, 0xF0] ∧
    (∀ a, 0x050 ≤ a → a < 4096 → (State.powerOn p).readByte a = 0) ∧
    (∀ r, (State.powerOn p).getV r = 0 ∧ (State.powerOn p).getFlag r = 0 ∧
      (State.powerOn p).keyDown r = false) ∧
    (State.powerOn p).i = 0 ∧ (State.powerOn p).sp = 0 ∧ (State.powerOn p).dt = 0 ∧
    (State.powerOn p).st = 0 ∧ (State.powerOn p).tickCounter = 0 ∧
    (State.powerOn p).romSize = 0 ∧ (State.powerOn p).dfb = blankDfb ∧
    (State.powerOn p).fbDetached = false ∧ step (State.powerOn p) =
      .fault (.romNotLoaded { State.powerOn p with reply := .error .romNotLoaded })

/-- R291, R38: `Reset()` zeroes SP, I, the timers, the counter, the V and FLAG registers, the current
framebuffer and the stack, and nothing else: PC, the keys, the ROM record, the framebuffer mode and every
other byte of memory stay. That a detached framebuffer's memory at 0xF00 to 0xFFF stays is the spec's own inference
(R38, log entry 24). -/
def Obligations.ResetZeroesExactlyItsList : Prop :=
  ∀ s : State, s.memory.wf = true →
    s.resetMachine.sp = 0 ∧ s.resetMachine.i = 0 ∧ s.resetMachine.dt = 0 ∧ s.resetMachine.st = 0 ∧
    s.resetMachine.tickCounter = 0 ∧
    (∀ r, s.resetMachine.getV r = 0 ∧ s.resetMachine.getFlag r = 0) ∧
    (∀ fi, fi < 256 → s.resetMachine.fbRead fi = 0) ∧
    (∀ a, 0xEA0 ≤ a → a < 0xF00 → s.resetMachine.readByte a = 0) ∧
    SameMemoryOutside (fun c => 0xEA0 ≤ c ∧ (c < 0xF00 ∨ s.fbDetached = false)) s s.resetMachine ∧
    s.resetMachine.pc = s.pc ∧ s.resetMachine.keyState = s.keyState ∧
    s.resetMachine.romLoaded = s.romLoaded ∧ s.resetMachine.romSize = s.romSize ∧
    s.resetMachine.fbDetached = s.fbDetached ∧
    (s.fbDetached = false → s.resetMachine.dfb = s.dfb)

/-- R292, R294, R295: a ROM that ends below 0xF00 is copied to 0x200, after `Reset()` unless it is the
first; its length is recorded, PC and the keys stay, no byte outside it changes beyond `Reset()`, and no other
field does. That the framebuffer mode stays is the spec's decision D8 (R293 (b), log entry 14). -/
def Obligations.RomLoadCopiesTheProgram : Prop :=
  ∀ (s : State) (bs : List Byte), s.memory.wf = true → 0x200 + bs.length < 0xF00 →
    (∀ k (h : k < bs.length), (s.loadRom bs).readByte (0x200 + k) = bs[k]) ∧
    SameMemoryOutside (fun c => 0x200 ≤ c ∧ c < 0x200 + bs.length)
      (if s.romLoaded then s.resetMachine else s) (s.loadRom bs) ∧
    s.loadRom bs = { (if s.romLoaded then s.resetMachine else s) with
      memory := (s.loadRom bs).memory, romLoaded := true, romSize := bs.length
      reply := (s.loadRom bs).reply } ∧
    (s.loadRom bs).fbDetached = s.fbDetached ∧
    (∀ fi, s.fbDetached = true → (s.loadRom bs).fbRead fi = if s.romLoaded then 0 else s.fbRead fi) ∧
    LoadedRegisters s (s.loadRom bs)

/-- R293, R294: a ROM that would reach 0xF00 is recorded and not copied, and the framebuffer becomes the
detached buffer; `Reset()` runs as on any load, and no other field changes. That the buffer is blank is the
spec's decision D9, and that a later load leaves it detached is D8 (log entry 14). -/
def Obligations.OversizedRomDetachesTheFramebuffer : Prop :=
  ∀ (s : State) (bs : List Byte), 0xF00 ≤ 0x200 + bs.length →
    (s.loadRom bs).fbDetached = true ∧ (∀ fi, (s.loadRom bs).fbRead fi = 0) ∧
    SameMemory (if s.romLoaded then s.resetMachine else s) (s.loadRom bs) ∧
    s.loadRom bs = { (if s.romLoaded then s.resetMachine else s) with
      romLoaded := true, romSize := bs.length, fbDetached := true, dfb := (s.loadRom bs).dfb
      reply := (s.loadRom bs).reply } ∧
    LoadedRegisters s (s.loadRom bs) ∧ (∀ cs, ((s.loadRom bs).loadRom cs).fbDetached = true)

/-- R231, R232, R235: the host's writes change one key, one flag register or PC, and nothing else. That
the host may set PC to 0x200 is the spec's decision D7, and that it may write FLAG is D24. -/
def Obligations.HostWritesChangeOneThing : Prop :=
  ∀ (s : State) (k : Fin 16) (pressed : Bool) (b : Byte),
    (HostOp.setKey k pressed).apply s = { s with keyState := ((HostOp.setKey k pressed).apply s).keyState } ∧
    (∀ j, ((HostOp.setKey k pressed).apply s).keyDown j = if j = k then pressed else s.keyDown j) ∧
    (HostOp.writeFlag k b).apply s = { s with flag := ((HostOp.writeFlag k b).apply s).flag } ∧
    (∀ j, ((HostOp.writeFlag k b).apply s).getFlag j = if j = k then b else s.getFlag j) ∧
    HostOp.resetPc.apply s = { s with pc := 0x200 }

/-- R234: the framebuffer the host reads has 256 bytes attached and 255 detached, and byte `fi` of it is
what the drawing instructions see. -/
def Obligations.HostReadsTheDrawnPicture : Prop :=
  ∀ s : State,
    s.readFramebuffer.length = (if s.fbDetached then 255 else 256) ∧
    ∀ fi (h : fi < s.readFramebuffer.length), s.readFramebuffer[fi] = s.fbRead fi
end

