-- ==== Sys2Proof/Laws/Decode.lean ====
section
/-! SUPPORT. The fields of a word as numbers, and the fields of the words the encoder builds in each format of R92. -/

namespace Sys2Proof

/-! ### Fields as numbers (R91) -/

theorem fieldF_toNat (op : Word) : (fieldF op).toNat = op.toNat / 4096 := by
  simp [fieldF, Nat.shiftRight_eq_div_pow]; omega

theorem fieldX_val (op : Word) : (fieldX op).val = op.toNat / 256 % 16 := by
  simp [fieldX, Nat.shiftRight_eq_div_pow]

theorem fieldY_val (op : Word) : (fieldY op).val = op.toNat / 16 % 16 := by
  simp [fieldY, Nat.shiftRight_eq_div_pow]

theorem fieldN_toNat (op : Word) : (fieldN op).toNat = op.toNat % 16 := by
  simp [fieldN]

theorem fieldNN_toNat (op : Word) : (fieldNN op).toNat = op.toNat % 256 := by
  simp [fieldNN]

theorem fieldNNN_toNat (op : Word) : (fieldNNN op).toNat = op.toNat % 4096 := by
  simp [fieldNNN]

@[simp] theorem regBits_toNat (r : Reg) : (regBits r).toNat = r.val := rfl

/-! ### The words of each format as numbers (R92) -/

/-- Concatenation as arithmetic. -/
theorem append_toNat {m n : Nat} (a : BitVec m) (b : BitVec n) :
    (a ++ b).toNat = a.toNat * 2 ^ n + b.toNat := by
  rw [BitVec.toNat_append, Nat.shiftLeft_eq, Nat.mul_comm, ← Nat.two_pow_add_eq_or_of_lt b.isLt]

theorem formatA_toNat (f : BitVec 4) (nnn : Addr) :
    BitVec.toNat (w := 16) (f ++ nnn) = f.toNat * 4096 + nnn.toNat :=
  append_toNat f nnn

theorem formatRI_toNat (f : BitVec 4) (x : Reg) (nn : Byte) :
    BitVec.toNat (w := 16) (f ++ regBits x ++ nn) = f.toNat * 4096 + x.val * 256 + nn.toNat := by
  refine (append_toNat (f ++ regBits x) nn).trans ?_
  rw [append_toNat f (regBits x)]
  simp only [regBits_toNat]
  ring

theorem formatRR_toNat (f : BitVec 4) (x y : Reg) (n : BitVec 4) :
    BitVec.toNat (w := 16) (f ++ regBits x ++ regBits y ++ n) =
      f.toNat * 4096 + x.val * 256 + y.val * 16 + n.toNat := by
  refine (append_toNat (f ++ regBits x ++ regBits y) n).trans ?_
  rw [append_toNat (f ++ regBits x) (regBits y), append_toNat f (regBits x)]
  simp only [regBits_toNat]
  ring

/-! ### The fields of the words of each format -/

@[simp] theorem fieldF_formatA (f : BitVec 4) (nnn : Addr) : fieldF (f ++ nnn) = f :=
  BitVec.eq_of_toNat_eq (by rw [fieldF_toNat, formatA_toNat]; omega)

@[simp] theorem fieldNNN_formatA (f : BitVec 4) (nnn : Addr) : fieldNNN (f ++ nnn) = nnn :=
  BitVec.eq_of_toNat_eq (by rw [fieldNNN_toNat, formatA_toNat]; omega)

@[simp] theorem fieldF_formatRI (f : BitVec 4) (x : Reg) (nn : Byte) :
    fieldF (f ++ regBits x ++ nn) = f :=
  BitVec.eq_of_toNat_eq (by rw [fieldF_toNat, formatRI_toNat]; omega)

@[simp] theorem fieldX_formatRI (f : BitVec 4) (x : Reg) (nn : Byte) :
    fieldX (f ++ regBits x ++ nn) = x :=
  Fin.ext (by rw [fieldX_val, formatRI_toNat]; omega)

@[simp] theorem fieldNN_formatRI (f : BitVec 4) (x : Reg) (nn : Byte) :
    fieldNN (f ++ regBits x ++ nn) = nn :=
  BitVec.eq_of_toNat_eq (by rw [fieldNN_toNat, formatRI_toNat]; omega)

@[simp] theorem fieldF_formatRR (f : BitVec 4) (x y : Reg) (n : BitVec 4) :
    fieldF (f ++ regBits x ++ regBits y ++ n) = f :=
  BitVec.eq_of_toNat_eq (by rw [fieldF_toNat, formatRR_toNat]; omega)

@[simp] theorem fieldX_formatRR (f : BitVec 4) (x y : Reg) (n : BitVec 4) :
    fieldX (f ++ regBits x ++ regBits y ++ n) = x :=
  Fin.ext (by rw [fieldX_val, formatRR_toNat]; omega)

@[simp] theorem fieldY_formatRR (f : BitVec 4) (x y : Reg) (n : BitVec 4) :
    fieldY (f ++ regBits x ++ regBits y ++ n) = y :=
  Fin.ext (by rw [fieldY_val, formatRR_toNat]; omega)

@[simp] theorem fieldN_formatRR (f : BitVec 4) (x y : Reg) (n : BitVec 4) :
    fieldN (f ++ regBits x ++ regBits y ++ n) = n :=
  BitVec.eq_of_toNat_eq (by rw [fieldN_toNat, formatRR_toNat]; omega)

/-! ### The masks of the opcode map (R95) -/

theorem and_maskF (op : Word) : op &&& 0xF000#16 = fieldF op ++ 0#12 := by
  have hl : ∀ i, i < 16 → BitVec.getLsbD 0xF000#16 i = decide (12 ≤ i) := by decide
  apply BitVec.eq_of_getLsbD_eq
  intro i hi
  rw [BitVec.getLsbD_and, hl i hi]
  change _ = BitVec.getLsbD (w := 4 + 12) (fieldF op ++ 0#12) i
  rw [BitVec.getLsbD_append]
  by_cases h : i < 12
  · simp [h]
  · simp [h, fieldF, show 12 ≤ i by omega, show i - 12 < 4 by omega, show 12 + (i - 12) = i by omega]

theorem and_maskFN (op : Word) : op &&& 0xF00F#16 = fieldF op ++ 0#8 ++ fieldN op := by
  have hl : ∀ i, i < 16 → BitVec.getLsbD 0xF00F#16 i = decide (12 ≤ i ∨ i < 4) := by decide
  apply BitVec.eq_of_getLsbD_eq
  intro i hi
  rw [BitVec.getLsbD_and, hl i hi]
  change _ = BitVec.getLsbD (w := 4 + 8 + 4) (fieldF op ++ 0#8 ++ fieldN op) i
  rw [BitVec.getLsbD_append, BitVec.getLsbD_append]
  by_cases h : i < 4
  · simp [h, fieldN]
  · by_cases h' : i < 12
    · simp [h, show i - 4 < 8 by omega, show ¬ 12 ≤ i by omega]
    · simp [h, fieldF, show ¬ i - 4 < 8 by omega, show 12 ≤ i by omega, show i - 4 - 8 < 4 by omega,
        show 12 + (i - 4 - 8) = i by omega]

theorem and_maskFNN (op : Word) : op &&& 0xF0FF#16 = fieldF op ++ 0#4 ++ fieldNN op := by
  have hl : ∀ i, i < 16 → BitVec.getLsbD 0xF0FF#16 i = decide (12 ≤ i ∨ i < 8) := by decide
  apply BitVec.eq_of_getLsbD_eq
  intro i hi
  rw [BitVec.getLsbD_and, hl i hi]
  change _ = BitVec.getLsbD (w := 4 + 4 + 8) (fieldF op ++ 0#4 ++ fieldNN op) i
  rw [BitVec.getLsbD_append, BitVec.getLsbD_append]
  by_cases h : i < 8
  · simp [h, fieldNN]
  · by_cases h' : i < 12
    · simp [h, show i - 8 < 4 by omega, show ¬ 12 ≤ i by omega]
    · simp [h, fieldF, show ¬ i - 8 < 4 by omega, show 12 ≤ i by omega, show i - 8 - 4 < 4 by omega,
        show 12 + (i - 8 - 4) = i by omega]

theorem and_maskAll (op : Word) : op &&& 0xFFFF#16 = op := by
  rw [show (0xFFFF#16) = BitVec.allOnes 16 by decide, BitVec.and_allOnes]

/-! ### A word and its two bytes (R64) -/

@[simp] theorem hiByte_append_loByte (op : Word) : (hiByte op ++ loByte op : Word) = op := by
  apply BitVec.eq_of_toNat_eq
  have h := append_toNat (hiByte op) (loByte op)
  simp [hiByte, loByte, Nat.shiftRight_eq_div_pow] at h ⊢
  omega

@[simp] theorem hiByte_append (a b : Byte) : hiByte (a ++ b) = a := by
  apply BitVec.eq_of_toNat_eq
  have h := append_toNat a b
  simp [hiByte, Nat.shiftRight_eq_div_pow] at h ⊢
  omega

@[simp] theorem loByte_append (a b : Byte) : loByte (a ++ b) = b := by
  apply BitVec.eq_of_toNat_eq
  have h := append_toNat a b
  have hb := b.isLt
  simp only [loByte, BitVec.extractLsb'_toNat, h, Nat.shiftRight_zero]
  omega

/-- Decoding the bytes memory holds for a word is decoding the word. -/
theorem decodeBytes_wordBytes (op : Word) :
    decodeBytes (wordBytes op) =
      match decode op with
      | .ok i => .ok (i, [])
      | .error r => .error r := by
  cases h : decode op <;> simp only [wordBytes, decodeBytes, hiByte_append_loByte, h]

end Sys2Proof
end

