-- ==== Sys2Proof/Laws/State.lean ====
section
/-! SUPPORT. What each update of the state does to each field, and the registers read back after each update. -/

namespace Sys2Proof.Machine.State

variable (s : State)

/-! #### setV -/

@[simp] theorem setV_v (r : Reg) (b : Byte) : (s.setV r b).v = s.v.set r.val b := rfl
@[simp] theorem setV_flag (r : Reg) (b : Byte) : (s.setV r b).flag = s.flag := rfl
@[simp] theorem setV_i (r : Reg) (b : Byte) : (s.setV r b).i = s.i := rfl
@[simp] theorem setV_pc (r : Reg) (b : Byte) : (s.setV r b).pc = s.pc := rfl
@[simp] theorem setV_sp (r : Reg) (b : Byte) : (s.setV r b).sp = s.sp := rfl
@[simp] theorem setV_dt (r : Reg) (b : Byte) : (s.setV r b).dt = s.dt := rfl
@[simp] theorem setV_st (r : Reg) (b : Byte) : (s.setV r b).st = s.st := rfl
@[simp] theorem setV_keyState (r : Reg) (b : Byte) : (s.setV r b).keyState = s.keyState := rfl
@[simp] theorem setV_tickCounter (r : Reg) (b : Byte) : (s.setV r b).tickCounter = s.tickCounter := rfl
@[simp] theorem setV_romLoaded (r : Reg) (b : Byte) : (s.setV r b).romLoaded = s.romLoaded := rfl
@[simp] theorem setV_romSize (r : Reg) (b : Byte) : (s.setV r b).romSize = s.romSize := rfl
@[simp] theorem setV_fbDetached (r : Reg) (b : Byte) : (s.setV r b).fbDetached = s.fbDetached := rfl
@[simp] theorem setV_dfb (r : Reg) (b : Byte) : (s.setV r b).dfb = s.dfb := rfl
@[simp] theorem setV_memory (r : Reg) (b : Byte) : (s.setV r b).memory = s.memory := rfl
@[simp] theorem setV_params (r : Reg) (b : Byte) : (s.setV r b).params = s.params := rfl
@[simp] theorem setV_draws (r : Reg) (b : Byte) : (s.setV r b).draws = s.draws := rfl
@[simp] theorem setV_reply (r : Reg) (b : Byte) : (s.setV r b).reply = s.reply := rfl

/-! #### setFlag -/

@[simp] theorem setFlag_v (r : Reg) (b : Byte) : (s.setFlag r b).v = s.v := rfl
@[simp] theorem setFlag_flag (r : Reg) (b : Byte) : (s.setFlag r b).flag = s.flag.set r.val b := rfl
@[simp] theorem setFlag_i (r : Reg) (b : Byte) : (s.setFlag r b).i = s.i := rfl
@[simp] theorem setFlag_pc (r : Reg) (b : Byte) : (s.setFlag r b).pc = s.pc := rfl
@[simp] theorem setFlag_sp (r : Reg) (b : Byte) : (s.setFlag r b).sp = s.sp := rfl
@[simp] theorem setFlag_dt (r : Reg) (b : Byte) : (s.setFlag r b).dt = s.dt := rfl
@[simp] theorem setFlag_st (r : Reg) (b : Byte) : (s.setFlag r b).st = s.st := rfl
@[simp] theorem setFlag_keyState (r : Reg) (b : Byte) : (s.setFlag r b).keyState = s.keyState := rfl
@[simp] theorem setFlag_tickCounter (r : Reg) (b : Byte) : (s.setFlag r b).tickCounter = s.tickCounter := rfl
@[simp] theorem setFlag_romLoaded (r : Reg) (b : Byte) : (s.setFlag r b).romLoaded = s.romLoaded := rfl
@[simp] theorem setFlag_romSize (r : Reg) (b : Byte) : (s.setFlag r b).romSize = s.romSize := rfl
@[simp] theorem setFlag_fbDetached (r : Reg) (b : Byte) : (s.setFlag r b).fbDetached = s.fbDetached := rfl
@[simp] theorem setFlag_dfb (r : Reg) (b : Byte) : (s.setFlag r b).dfb = s.dfb := rfl
@[simp] theorem setFlag_memory (r : Reg) (b : Byte) : (s.setFlag r b).memory = s.memory := rfl
@[simp] theorem setFlag_params (r : Reg) (b : Byte) : (s.setFlag r b).params = s.params := rfl
@[simp] theorem setFlag_draws (r : Reg) (b : Byte) : (s.setFlag r b).draws = s.draws := rfl
@[simp] theorem setFlag_reply (r : Reg) (b : Byte) : (s.setFlag r b).reply = s.reply := rfl

/-! #### setPc -/

@[simp] theorem setPc_v (a : Word) : (s.setPc a).v = s.v := rfl
@[simp] theorem setPc_flag (a : Word) : (s.setPc a).flag = s.flag := rfl
@[simp] theorem setPc_i (a : Word) : (s.setPc a).i = s.i := rfl
@[simp] theorem setPc_pc (a : Word) : (s.setPc a).pc = a := rfl
@[simp] theorem setPc_sp (a : Word) : (s.setPc a).sp = s.sp := rfl
@[simp] theorem setPc_dt (a : Word) : (s.setPc a).dt = s.dt := rfl
@[simp] theorem setPc_st (a : Word) : (s.setPc a).st = s.st := rfl
@[simp] theorem setPc_keyState (a : Word) : (s.setPc a).keyState = s.keyState := rfl
@[simp] theorem setPc_tickCounter (a : Word) : (s.setPc a).tickCounter = s.tickCounter := rfl
@[simp] theorem setPc_romLoaded (a : Word) : (s.setPc a).romLoaded = s.romLoaded := rfl
@[simp] theorem setPc_romSize (a : Word) : (s.setPc a).romSize = s.romSize := rfl
@[simp] theorem setPc_fbDetached (a : Word) : (s.setPc a).fbDetached = s.fbDetached := rfl
@[simp] theorem setPc_dfb (a : Word) : (s.setPc a).dfb = s.dfb := rfl
@[simp] theorem setPc_memory (a : Word) : (s.setPc a).memory = s.memory := rfl
@[simp] theorem setPc_params (a : Word) : (s.setPc a).params = s.params := rfl
@[simp] theorem setPc_draws (a : Word) : (s.setPc a).draws = s.draws := rfl
@[simp] theorem setPc_reply (a : Word) : (s.setPc a).reply = s.reply := rfl

/-! #### setI -/

@[simp] theorem setI_v (a : Word) : (s.setI a).v = s.v := rfl
@[simp] theorem setI_flag (a : Word) : (s.setI a).flag = s.flag := rfl
@[simp] theorem setI_i (a : Word) : (s.setI a).i = a := rfl
@[simp] theorem setI_pc (a : Word) : (s.setI a).pc = s.pc := rfl
@[simp] theorem setI_sp (a : Word) : (s.setI a).sp = s.sp := rfl
@[simp] theorem setI_dt (a : Word) : (s.setI a).dt = s.dt := rfl
@[simp] theorem setI_st (a : Word) : (s.setI a).st = s.st := rfl
@[simp] theorem setI_keyState (a : Word) : (s.setI a).keyState = s.keyState := rfl
@[simp] theorem setI_tickCounter (a : Word) : (s.setI a).tickCounter = s.tickCounter := rfl
@[simp] theorem setI_romLoaded (a : Word) : (s.setI a).romLoaded = s.romLoaded := rfl
@[simp] theorem setI_romSize (a : Word) : (s.setI a).romSize = s.romSize := rfl
@[simp] theorem setI_fbDetached (a : Word) : (s.setI a).fbDetached = s.fbDetached := rfl
@[simp] theorem setI_dfb (a : Word) : (s.setI a).dfb = s.dfb := rfl
@[simp] theorem setI_memory (a : Word) : (s.setI a).memory = s.memory := rfl
@[simp] theorem setI_params (a : Word) : (s.setI a).params = s.params := rfl
@[simp] theorem setI_draws (a : Word) : (s.setI a).draws = s.draws := rfl
@[simp] theorem setI_reply (a : Word) : (s.setI a).reply = s.reply := rfl

/-! #### writeByte -/

@[simp] theorem writeByte_v (a : Nat) (b : Byte) : (s.writeByte a b).v = s.v := rfl
@[simp] theorem writeByte_flag (a : Nat) (b : Byte) : (s.writeByte a b).flag = s.flag := rfl
@[simp] theorem writeByte_i (a : Nat) (b : Byte) : (s.writeByte a b).i = s.i := rfl
@[simp] theorem writeByte_pc (a : Nat) (b : Byte) : (s.writeByte a b).pc = s.pc := rfl
@[simp] theorem writeByte_sp (a : Nat) (b : Byte) : (s.writeByte a b).sp = s.sp := rfl
@[simp] theorem writeByte_dt (a : Nat) (b : Byte) : (s.writeByte a b).dt = s.dt := rfl
@[simp] theorem writeByte_st (a : Nat) (b : Byte) : (s.writeByte a b).st = s.st := rfl
@[simp] theorem writeByte_keyState (a : Nat) (b : Byte) : (s.writeByte a b).keyState = s.keyState := rfl
@[simp] theorem writeByte_tickCounter (a : Nat) (b : Byte) : (s.writeByte a b).tickCounter = s.tickCounter := rfl
@[simp] theorem writeByte_romLoaded (a : Nat) (b : Byte) : (s.writeByte a b).romLoaded = s.romLoaded := rfl
@[simp] theorem writeByte_romSize (a : Nat) (b : Byte) : (s.writeByte a b).romSize = s.romSize := rfl
@[simp] theorem writeByte_fbDetached (a : Nat) (b : Byte) : (s.writeByte a b).fbDetached = s.fbDetached := rfl
@[simp] theorem writeByte_dfb (a : Nat) (b : Byte) : (s.writeByte a b).dfb = s.dfb := rfl
@[simp] theorem writeByte_memory (a : Nat) (b : Byte) : (s.writeByte a b).memory = s.memory.write a b := rfl
@[simp] theorem writeByte_params (a : Nat) (b : Byte) : (s.writeByte a b).params = s.params := rfl
@[simp] theorem writeByte_draws (a : Nat) (b : Byte) : (s.writeByte a b).draws = s.draws := rfl
@[simp] theorem writeByte_reply (a : Nat) (b : Byte) : (s.writeByte a b).reply = s.reply := rfl

/-! #### writeBytes -/

@[simp] theorem writeBytes_v (a : Nat) (bs : List Byte) : (s.writeBytes a bs).v = s.v := rfl
@[simp] theorem writeBytes_flag (a : Nat) (bs : List Byte) : (s.writeBytes a bs).flag = s.flag := rfl
@[simp] theorem writeBytes_i (a : Nat) (bs : List Byte) : (s.writeBytes a bs).i = s.i := rfl
@[simp] theorem writeBytes_pc (a : Nat) (bs : List Byte) : (s.writeBytes a bs).pc = s.pc := rfl
@[simp] theorem writeBytes_sp (a : Nat) (bs : List Byte) : (s.writeBytes a bs).sp = s.sp := rfl
@[simp] theorem writeBytes_dt (a : Nat) (bs : List Byte) : (s.writeBytes a bs).dt = s.dt := rfl
@[simp] theorem writeBytes_st (a : Nat) (bs : List Byte) : (s.writeBytes a bs).st = s.st := rfl
@[simp] theorem writeBytes_keyState (a : Nat) (bs : List Byte) : (s.writeBytes a bs).keyState = s.keyState := rfl
@[simp] theorem writeBytes_tickCounter (a : Nat) (bs : List Byte) : (s.writeBytes a bs).tickCounter = s.tickCounter := rfl
@[simp] theorem writeBytes_romLoaded (a : Nat) (bs : List Byte) : (s.writeBytes a bs).romLoaded = s.romLoaded := rfl
@[simp] theorem writeBytes_romSize (a : Nat) (bs : List Byte) : (s.writeBytes a bs).romSize = s.romSize := rfl
@[simp] theorem writeBytes_fbDetached (a : Nat) (bs : List Byte) : (s.writeBytes a bs).fbDetached = s.fbDetached := rfl
@[simp] theorem writeBytes_dfb (a : Nat) (bs : List Byte) : (s.writeBytes a bs).dfb = s.dfb := rfl
@[simp] theorem writeBytes_memory (a : Nat) (bs : List Byte) : (s.writeBytes a bs).memory = s.memory.writeList a bs := rfl
@[simp] theorem writeBytes_params (a : Nat) (bs : List Byte) : (s.writeBytes a bs).params = s.params := rfl
@[simp] theorem writeBytes_draws (a : Nat) (bs : List Byte) : (s.writeBytes a bs).draws = s.draws := rfl
@[simp] theorem writeBytes_reply (a : Nat) (bs : List Byte) : (s.writeBytes a bs).reply = s.reply := rfl

/-! #### answer -/

@[simp] theorem answer_v (r : Reply) : (s.answer r).v = s.v := rfl
@[simp] theorem answer_flag (r : Reply) : (s.answer r).flag = s.flag := rfl
@[simp] theorem answer_i (r : Reply) : (s.answer r).i = s.i := rfl
@[simp] theorem answer_pc (r : Reply) : (s.answer r).pc = s.pc := rfl
@[simp] theorem answer_sp (r : Reply) : (s.answer r).sp = s.sp := rfl
@[simp] theorem answer_dt (r : Reply) : (s.answer r).dt = s.dt := rfl
@[simp] theorem answer_st (r : Reply) : (s.answer r).st = s.st := rfl
@[simp] theorem answer_keyState (r : Reply) : (s.answer r).keyState = s.keyState := rfl
@[simp] theorem answer_tickCounter (r : Reply) : (s.answer r).tickCounter = s.tickCounter := rfl
@[simp] theorem answer_romLoaded (r : Reply) : (s.answer r).romLoaded = s.romLoaded := rfl
@[simp] theorem answer_romSize (r : Reply) : (s.answer r).romSize = s.romSize := rfl
@[simp] theorem answer_fbDetached (r : Reply) : (s.answer r).fbDetached = s.fbDetached := rfl
@[simp] theorem answer_dfb (r : Reply) : (s.answer r).dfb = s.dfb := rfl
@[simp] theorem answer_memory (r : Reply) : (s.answer r).memory = s.memory := rfl
@[simp] theorem answer_params (r : Reply) : (s.answer r).params = s.params := rfl
@[simp] theorem answer_draws (r : Reply) : (s.answer r).draws = s.draws := rfl
@[simp] theorem answer_reply (r : Reply) : (s.answer r).reply = r := rfl

/-! #### advance -/

@[simp] theorem advance_v : s.advance.v = s.v := rfl
@[simp] theorem advance_flag : s.advance.flag = s.flag := rfl
@[simp] theorem advance_i : s.advance.i = s.i := rfl
@[simp] theorem advance_pc : s.advance.pc = s.pc + 2 := rfl
@[simp] theorem advance_sp : s.advance.sp = s.sp := rfl
@[simp] theorem advance_dt : s.advance.dt = s.dt := rfl
@[simp] theorem advance_st : s.advance.st = s.st := rfl
@[simp] theorem advance_keyState : s.advance.keyState = s.keyState := rfl
@[simp] theorem advance_tickCounter : s.advance.tickCounter = s.tickCounter := rfl
@[simp] theorem advance_romLoaded : s.advance.romLoaded = s.romLoaded := rfl
@[simp] theorem advance_romSize : s.advance.romSize = s.romSize := rfl
@[simp] theorem advance_fbDetached : s.advance.fbDetached = s.fbDetached := rfl
@[simp] theorem advance_dfb : s.advance.dfb = s.dfb := rfl
@[simp] theorem advance_memory : s.advance.memory = s.memory := rfl
@[simp] theorem advance_params : s.advance.params = s.params := rfl
@[simp] theorem advance_draws : s.advance.draws = s.draws := rfl
@[simp] theorem advance_reply : s.advance.reply = s.reply := rfl

/-! #### setResultThenFlag -/

@[simp] theorem setResultThenFlag_v (x : Reg) (b f : Byte) : (s.setResultThenFlag x b f).v = (s.v.set x.val b).set regF.val f := rfl
@[simp] theorem setResultThenFlag_flag (x : Reg) (b f : Byte) : (s.setResultThenFlag x b f).flag = s.flag := rfl
@[simp] theorem setResultThenFlag_i (x : Reg) (b f : Byte) : (s.setResultThenFlag x b f).i = s.i := rfl
@[simp] theorem setResultThenFlag_pc (x : Reg) (b f : Byte) : (s.setResultThenFlag x b f).pc = s.pc := rfl
@[simp] theorem setResultThenFlag_sp (x : Reg) (b f : Byte) : (s.setResultThenFlag x b f).sp = s.sp := rfl
@[simp] theorem setResultThenFlag_dt (x : Reg) (b f : Byte) : (s.setResultThenFlag x b f).dt = s.dt := rfl
@[simp] theorem setResultThenFlag_st (x : Reg) (b f : Byte) : (s.setResultThenFlag x b f).st = s.st := rfl
@[simp] theorem setResultThenFlag_keyState (x : Reg) (b f : Byte) : (s.setResultThenFlag x b f).keyState = s.keyState := rfl
@[simp] theorem setResultThenFlag_tickCounter (x : Reg) (b f : Byte) : (s.setResultThenFlag x b f).tickCounter = s.tickCounter := rfl
@[simp] theorem setResultThenFlag_romLoaded (x : Reg) (b f : Byte) : (s.setResultThenFlag x b f).romLoaded = s.romLoaded := rfl
@[simp] theorem setResultThenFlag_romSize (x : Reg) (b f : Byte) : (s.setResultThenFlag x b f).romSize = s.romSize := rfl
@[simp] theorem setResultThenFlag_fbDetached (x : Reg) (b f : Byte) : (s.setResultThenFlag x b f).fbDetached = s.fbDetached := rfl
@[simp] theorem setResultThenFlag_dfb (x : Reg) (b f : Byte) : (s.setResultThenFlag x b f).dfb = s.dfb := rfl
@[simp] theorem setResultThenFlag_memory (x : Reg) (b f : Byte) : (s.setResultThenFlag x b f).memory = s.memory := rfl
@[simp] theorem setResultThenFlag_params (x : Reg) (b f : Byte) : (s.setResultThenFlag x b f).params = s.params := rfl
@[simp] theorem setResultThenFlag_draws (x : Reg) (b f : Byte) : (s.setResultThenFlag x b f).draws = s.draws := rfl
@[simp] theorem setResultThenFlag_reply (x : Reg) (b f : Byte) : (s.setResultThenFlag x b f).reply = s.reply := rfl

/-! #### modSix -/

@[simp] theorem modSix_v : s.modSix.v = s.v := rfl
@[simp] theorem modSix_flag : s.modSix.flag = s.flag := rfl
@[simp] theorem modSix_i : s.modSix.i = s.i := rfl
@[simp] theorem modSix_pc : s.modSix.pc = s.pc := rfl
@[simp] theorem modSix_sp : s.modSix.sp = s.sp := rfl
@[simp] theorem modSix_dt : s.modSix.dt = s.dt := rfl
@[simp] theorem modSix_st : s.modSix.st = s.st := rfl
@[simp] theorem modSix_keyState : s.modSix.keyState = s.keyState := rfl
@[simp] theorem modSix_tickCounter : s.modSix.tickCounter = s.tickCounter % 6 := rfl
@[simp] theorem modSix_romLoaded : s.modSix.romLoaded = s.romLoaded := rfl
@[simp] theorem modSix_romSize : s.modSix.romSize = s.romSize := rfl
@[simp] theorem modSix_fbDetached : s.modSix.fbDetached = s.fbDetached := rfl
@[simp] theorem modSix_dfb : s.modSix.dfb = s.dfb := rfl
@[simp] theorem modSix_memory : s.modSix.memory = s.memory := rfl
@[simp] theorem modSix_params : s.modSix.params = s.params := rfl
@[simp] theorem modSix_draws : s.modSix.draws = s.draws := rfl
@[simp] theorem modSix_reply : s.modSix.reply = s.reply := rfl

/-! #### skipIf, stackWrite, fbWrite, fbClear and tick -/

@[simp] theorem skipIf_v (c : Bool) : (s.skipIf c).v = s.v := by
  simp only [skipIf]; split <;> rfl
@[simp] theorem skipIf_flag (c : Bool) : (s.skipIf c).flag = s.flag := by
  simp only [skipIf]; split <;> rfl
@[simp] theorem skipIf_i (c : Bool) : (s.skipIf c).i = s.i := by
  simp only [skipIf]; split <;> rfl
@[simp] theorem skipIf_sp (c : Bool) : (s.skipIf c).sp = s.sp := by
  simp only [skipIf]; split <;> rfl
@[simp] theorem skipIf_dt (c : Bool) : (s.skipIf c).dt = s.dt := by
  simp only [skipIf]; split <;> rfl
@[simp] theorem skipIf_st (c : Bool) : (s.skipIf c).st = s.st := by
  simp only [skipIf]; split <;> rfl
@[simp] theorem skipIf_keyState (c : Bool) : (s.skipIf c).keyState = s.keyState := by
  simp only [skipIf]; split <;> rfl
@[simp] theorem skipIf_tickCounter (c : Bool) : (s.skipIf c).tickCounter = s.tickCounter := by
  simp only [skipIf]; split <;> rfl
@[simp] theorem skipIf_romLoaded (c : Bool) : (s.skipIf c).romLoaded = s.romLoaded := by
  simp only [skipIf]; split <;> rfl
@[simp] theorem skipIf_romSize (c : Bool) : (s.skipIf c).romSize = s.romSize := by
  simp only [skipIf]; split <;> rfl
@[simp] theorem skipIf_fbDetached (c : Bool) : (s.skipIf c).fbDetached = s.fbDetached := by
  simp only [skipIf]; split <;> rfl
@[simp] theorem skipIf_dfb (c : Bool) : (s.skipIf c).dfb = s.dfb := by
  simp only [skipIf]; split <;> rfl
@[simp] theorem skipIf_memory (c : Bool) : (s.skipIf c).memory = s.memory := by
  simp only [skipIf]; split <;> rfl
@[simp] theorem skipIf_params (c : Bool) : (s.skipIf c).params = s.params := by
  simp only [skipIf]; split <;> rfl
@[simp] theorem skipIf_draws (c : Bool) : (s.skipIf c).draws = s.draws := by
  simp only [skipIf]; split <;> rfl
@[simp] theorem skipIf_reply (c : Bool) : (s.skipIf c).reply = s.reply := by
  simp only [skipIf]; split <;> rfl

@[simp] theorem stackWrite_v (n : Nat) (w : Word) : (s.stackWrite n w).v = s.v := by
  simp only [stackWrite]; split <;> rfl
@[simp] theorem stackWrite_flag (n : Nat) (w : Word) : (s.stackWrite n w).flag = s.flag := by
  simp only [stackWrite]; split <;> rfl
@[simp] theorem stackWrite_i (n : Nat) (w : Word) : (s.stackWrite n w).i = s.i := by
  simp only [stackWrite]; split <;> rfl
@[simp] theorem stackWrite_pc (n : Nat) (w : Word) : (s.stackWrite n w).pc = s.pc := by
  simp only [stackWrite]; split <;> rfl
@[simp] theorem stackWrite_sp (n : Nat) (w : Word) : (s.stackWrite n w).sp = s.sp := by
  simp only [stackWrite]; split <;> rfl
@[simp] theorem stackWrite_dt (n : Nat) (w : Word) : (s.stackWrite n w).dt = s.dt := by
  simp only [stackWrite]; split <;> rfl
@[simp] theorem stackWrite_st (n : Nat) (w : Word) : (s.stackWrite n w).st = s.st := by
  simp only [stackWrite]; split <;> rfl
@[simp] theorem stackWrite_keyState (n : Nat) (w : Word) : (s.stackWrite n w).keyState = s.keyState := by
  simp only [stackWrite]; split <;> rfl
@[simp] theorem stackWrite_tickCounter (n : Nat) (w : Word) : (s.stackWrite n w).tickCounter = s.tickCounter := by
  simp only [stackWrite]; split <;> rfl
@[simp] theorem stackWrite_romLoaded (n : Nat) (w : Word) : (s.stackWrite n w).romLoaded = s.romLoaded := by
  simp only [stackWrite]; split <;> rfl
@[simp] theorem stackWrite_romSize (n : Nat) (w : Word) : (s.stackWrite n w).romSize = s.romSize := by
  simp only [stackWrite]; split <;> rfl
@[simp] theorem stackWrite_fbDetached (n : Nat) (w : Word) : (s.stackWrite n w).fbDetached = s.fbDetached := by
  simp only [stackWrite]; split <;> rfl
@[simp] theorem stackWrite_dfb (n : Nat) (w : Word) : (s.stackWrite n w).dfb = s.dfb := by
  simp only [stackWrite]; split <;> rfl
@[simp] theorem stackWrite_params (n : Nat) (w : Word) : (s.stackWrite n w).params = s.params := by
  simp only [stackWrite]; split <;> rfl
@[simp] theorem stackWrite_draws (n : Nat) (w : Word) : (s.stackWrite n w).draws = s.draws := by
  simp only [stackWrite]; split <;> rfl
@[simp] theorem stackWrite_reply (n : Nat) (w : Word) : (s.stackWrite n w).reply = s.reply := by
  simp only [stackWrite]; split <;> rfl

@[simp] theorem fbWrite_v (fi : Nat) (b : Byte) : (s.fbWrite fi b).v = s.v := by
  simp only [fbWrite]; split <;> rfl
@[simp] theorem fbWrite_flag (fi : Nat) (b : Byte) : (s.fbWrite fi b).flag = s.flag := by
  simp only [fbWrite]; split <;> rfl
@[simp] theorem fbWrite_i (fi : Nat) (b : Byte) : (s.fbWrite fi b).i = s.i := by
  simp only [fbWrite]; split <;> rfl
@[simp] theorem fbWrite_pc (fi : Nat) (b : Byte) : (s.fbWrite fi b).pc = s.pc := by
  simp only [fbWrite]; split <;> rfl
@[simp] theorem fbWrite_sp (fi : Nat) (b : Byte) : (s.fbWrite fi b).sp = s.sp := by
  simp only [fbWrite]; split <;> rfl
@[simp] theorem fbWrite_dt (fi : Nat) (b : Byte) : (s.fbWrite fi b).dt = s.dt := by
  simp only [fbWrite]; split <;> rfl
@[simp] theorem fbWrite_st (fi : Nat) (b : Byte) : (s.fbWrite fi b).st = s.st := by
  simp only [fbWrite]; split <;> rfl
@[simp] theorem fbWrite_keyState (fi : Nat) (b : Byte) : (s.fbWrite fi b).keyState = s.keyState := by
  simp only [fbWrite]; split <;> rfl
@[simp] theorem fbWrite_tickCounter (fi : Nat) (b : Byte) : (s.fbWrite fi b).tickCounter = s.tickCounter := by
  simp only [fbWrite]; split <;> rfl
@[simp] theorem fbWrite_romLoaded (fi : Nat) (b : Byte) : (s.fbWrite fi b).romLoaded = s.romLoaded := by
  simp only [fbWrite]; split <;> rfl
@[simp] theorem fbWrite_romSize (fi : Nat) (b : Byte) : (s.fbWrite fi b).romSize = s.romSize := by
  simp only [fbWrite]; split <;> rfl
@[simp] theorem fbWrite_fbDetached (fi : Nat) (b : Byte) : (s.fbWrite fi b).fbDetached = s.fbDetached := by
  simp only [fbWrite]; split <;> rfl
@[simp] theorem fbWrite_params (fi : Nat) (b : Byte) : (s.fbWrite fi b).params = s.params := by
  simp only [fbWrite]; split <;> rfl
@[simp] theorem fbWrite_draws (fi : Nat) (b : Byte) : (s.fbWrite fi b).draws = s.draws := by
  simp only [fbWrite]; split <;> rfl
@[simp] theorem fbWrite_reply (fi : Nat) (b : Byte) : (s.fbWrite fi b).reply = s.reply := by
  simp only [fbWrite]; split <;> rfl

@[simp] theorem fbClear_v : s.fbClear.v = s.v := by
  unfold fbClear; split <;> simp only [writeBytes_v]
@[simp] theorem fbClear_flag : s.fbClear.flag = s.flag := by
  unfold fbClear; split <;> simp only [writeBytes_flag]
@[simp] theorem fbClear_i : s.fbClear.i = s.i := by
  unfold fbClear; split <;> simp only [writeBytes_i]
@[simp] theorem fbClear_pc : s.fbClear.pc = s.pc := by
  unfold fbClear; split <;> simp only [writeBytes_pc]
@[simp] theorem fbClear_sp : s.fbClear.sp = s.sp := by
  unfold fbClear; split <;> simp only [writeBytes_sp]
@[simp] theorem fbClear_dt : s.fbClear.dt = s.dt := by
  unfold fbClear; split <;> simp only [writeBytes_dt]
@[simp] theorem fbClear_st : s.fbClear.st = s.st := by
  unfold fbClear; split <;> simp only [writeBytes_st]
@[simp] theorem fbClear_keyState : s.fbClear.keyState = s.keyState := by
  unfold fbClear; split <;> simp only [writeBytes_keyState]
@[simp] theorem fbClear_tickCounter : s.fbClear.tickCounter = s.tickCounter := by
  unfold fbClear; split <;> simp only [writeBytes_tickCounter]
@[simp] theorem fbClear_romLoaded : s.fbClear.romLoaded = s.romLoaded := by
  unfold fbClear; split <;> simp only [writeBytes_romLoaded]
@[simp] theorem fbClear_romSize : s.fbClear.romSize = s.romSize := by
  unfold fbClear; split <;> simp only [writeBytes_romSize]
@[simp] theorem fbClear_fbDetached : s.fbClear.fbDetached = s.fbDetached := by
  unfold fbClear; split <;> simp only [writeBytes_fbDetached]
@[simp] theorem fbClear_params : s.fbClear.params = s.params := by
  unfold fbClear; split <;> simp only [writeBytes_params]
@[simp] theorem fbClear_draws : s.fbClear.draws = s.draws := by
  unfold fbClear; split <;> simp only [writeBytes_draws]
@[simp] theorem fbClear_reply : s.fbClear.reply = s.reply := by
  unfold fbClear; split <;> simp only [writeBytes_reply]

@[simp] theorem tick_v : s.tick.v = s.v := by
  simp only [tick]; split <;> rfl
@[simp] theorem tick_flag : s.tick.flag = s.flag := by
  simp only [tick]; split <;> rfl
@[simp] theorem tick_i : s.tick.i = s.i := by
  simp only [tick]; split <;> rfl
@[simp] theorem tick_pc : s.tick.pc = s.pc := by
  simp only [tick]; split <;> rfl
@[simp] theorem tick_sp : s.tick.sp = s.sp := by
  simp only [tick]; split <;> rfl
@[simp] theorem tick_keyState : s.tick.keyState = s.keyState := by
  simp only [tick]; split <;> rfl
@[simp] theorem tick_romLoaded : s.tick.romLoaded = s.romLoaded := by
  simp only [tick]; split <;> rfl
@[simp] theorem tick_romSize : s.tick.romSize = s.romSize := by
  simp only [tick]; split <;> rfl
@[simp] theorem tick_fbDetached : s.tick.fbDetached = s.fbDetached := by
  simp only [tick]; split <;> rfl
@[simp] theorem tick_dfb : s.tick.dfb = s.dfb := by
  simp only [tick]; split <;> rfl
@[simp] theorem tick_memory : s.tick.memory = s.memory := by
  simp only [tick]; split <;> rfl
@[simp] theorem tick_params : s.tick.params = s.params := by
  simp only [tick]; split <;> rfl
@[simp] theorem tick_draws : s.tick.draws = s.draws := by
  simp only [tick]; split <;> rfl
@[simp] theorem tick_reply : s.tick.reply = s.reply := by
  simp only [tick]; split <;> rfl

@[simp] theorem skipIf_pc (c : Bool) : (s.skipIf c).pc = if c then s.pc + 2 else s.pc := by
  cases c <;> rfl

/-! #### Registers read back -/

@[simp] theorem getV_setV_self (r : Reg) (b : Byte) : (s.setV r b).getV r = b := by
  simp [getV, setV]

theorem getV_setV_ne {r q : Reg} (b : Byte) (h : q ≠ r) : (s.setV r b).getV q = s.getV q := by
  have : r.val ≠ q.val := fun e => h (Fin.ext e.symm)
  simp [getV, setV, this]

theorem getV_setV (r q : Reg) (b : Byte) : (s.setV r b).getV q = if q = r then b else s.getV q := by
  split
  next h => subst h; simp
  next h => exact s.getV_setV_ne b h

@[simp] theorem getFlag_setFlag_self (r : Reg) (b : Byte) : (s.setFlag r b).getFlag r = b := by
  simp [getFlag, setFlag]

theorem getFlag_setFlag_ne {r q : Reg} (b : Byte) (h : q ≠ r) :
    (s.setFlag r b).getFlag q = s.getFlag q := by
  have : r.val ≠ q.val := fun e => h (Fin.ext e.symm)
  simp [getFlag, setFlag, this]

theorem getV_setResultThenFlag (x q : Reg) (b f : Byte) :
    (s.setResultThenFlag x b f).getV q = if q = regF then f else if q = x then b else s.getV q := by
  simp only [setResultThenFlag, getV_setV]

/-- The sixteen registers determine the register file. -/
theorem v_ext {v w : Vector Byte 16} (h : ∀ r : Reg, v[r.val] = w[r.val]) : v = w := by
  apply Vector.ext
  intro k hk
  exact h ⟨k, hk⟩

@[simp] theorem getV_setFlag (r : Reg) (b : Byte) (q : Reg) : (s.setFlag r b).getV q = s.getV q := rfl
@[simp] theorem getV_setPc (a : Word) (q : Reg) : (s.setPc a).getV q = s.getV q := rfl
@[simp] theorem getV_setI (a : Word) (q : Reg) : (s.setI a).getV q = s.getV q := rfl
@[simp] theorem getV_writeByte (a : Nat) (b : Byte) (q : Reg) : (s.writeByte a b).getV q = s.getV q := rfl
@[simp] theorem getV_writeBytes (a : Nat) (bs : List Byte) (q : Reg) : (s.writeBytes a bs).getV q = s.getV q := rfl
@[simp] theorem getV_answer (r : Reply) (q : Reg) : (s.answer r).getV q = s.getV q := rfl
@[simp] theorem getV_advance (q : Reg) : s.advance.getV q = s.getV q := rfl
@[simp] theorem getV_modSix (q : Reg) : s.modSix.getV q = s.getV q := rfl
@[simp] theorem getV_skipIf (c : Bool) (q : Reg) : (s.skipIf c).getV q = s.getV q := by
  simp [getV]
@[simp] theorem getV_stackWrite (n : Nat) (w : Word) (q : Reg) : (s.stackWrite n w).getV q = s.getV q := by
  simp [getV]
@[simp] theorem getV_fbWrite (fi : Nat) (b : Byte) (q : Reg) : (s.fbWrite fi b).getV q = s.getV q := by
  simp [getV]
@[simp] theorem getV_fbClear (q : Reg) : s.fbClear.getV q = s.getV q := by
  simp [getV]
@[simp] theorem getV_tick (q : Reg) : s.tick.getV q = s.getV q := by
  simp [getV]

@[simp] theorem getFlag_setV (r : Reg) (b : Byte) (q : Reg) : (s.setV r b).getFlag q = s.getFlag q := rfl
@[simp] theorem getFlag_setPc (a : Word) (q : Reg) : (s.setPc a).getFlag q = s.getFlag q := rfl
@[simp] theorem getFlag_setI (a : Word) (q : Reg) : (s.setI a).getFlag q = s.getFlag q := rfl
@[simp] theorem getFlag_writeByte (a : Nat) (b : Byte) (q : Reg) : (s.writeByte a b).getFlag q = s.getFlag q := rfl
@[simp] theorem getFlag_writeBytes (a : Nat) (bs : List Byte) (q : Reg) : (s.writeBytes a bs).getFlag q = s.getFlag q := rfl
@[simp] theorem getFlag_answer (r : Reply) (q : Reg) : (s.answer r).getFlag q = s.getFlag q := rfl
@[simp] theorem getFlag_advance (q : Reg) : s.advance.getFlag q = s.getFlag q := rfl
@[simp] theorem getFlag_setResultThenFlag (x : Reg) (b f : Byte) (q : Reg) : (s.setResultThenFlag x b f).getFlag q = s.getFlag q := rfl
@[simp] theorem getFlag_modSix (q : Reg) : s.modSix.getFlag q = s.getFlag q := rfl
@[simp] theorem getFlag_skipIf (c : Bool) (q : Reg) : (s.skipIf c).getFlag q = s.getFlag q := by
  simp [getFlag]
@[simp] theorem getFlag_stackWrite (n : Nat) (w : Word) (q : Reg) : (s.stackWrite n w).getFlag q = s.getFlag q := by
  simp [getFlag]
@[simp] theorem getFlag_fbWrite (fi : Nat) (b : Byte) (q : Reg) : (s.fbWrite fi b).getFlag q = s.getFlag q := by
  simp [getFlag]
@[simp] theorem getFlag_fbClear (q : Reg) : s.fbClear.getFlag q = s.getFlag q := by
  simp [getFlag]
@[simp] theorem getFlag_tick (q : Reg) : s.tick.getFlag q = s.getFlag q := by
  simp [getFlag]

@[simp] theorem keyDown_setV (r : Reg) (b : Byte) (k : Fin 16) : (s.setV r b).keyDown k = s.keyDown k := rfl
@[simp] theorem keyDown_setFlag (r : Reg) (b : Byte) (k : Fin 16) : (s.setFlag r b).keyDown k = s.keyDown k := rfl
@[simp] theorem keyDown_setPc (a : Word) (k : Fin 16) : (s.setPc a).keyDown k = s.keyDown k := rfl
@[simp] theorem keyDown_setI (a : Word) (k : Fin 16) : (s.setI a).keyDown k = s.keyDown k := rfl
@[simp] theorem keyDown_writeByte (a : Nat) (b : Byte) (k : Fin 16) : (s.writeByte a b).keyDown k = s.keyDown k := rfl
@[simp] theorem keyDown_writeBytes (a : Nat) (bs : List Byte) (k : Fin 16) : (s.writeBytes a bs).keyDown k = s.keyDown k := rfl
@[simp] theorem keyDown_answer (r : Reply) (k : Fin 16) : (s.answer r).keyDown k = s.keyDown k := rfl
@[simp] theorem keyDown_advance (k : Fin 16) : s.advance.keyDown k = s.keyDown k := rfl
@[simp] theorem keyDown_setResultThenFlag (x : Reg) (b f : Byte) (k : Fin 16) : (s.setResultThenFlag x b f).keyDown k = s.keyDown k := rfl
@[simp] theorem keyDown_modSix (k : Fin 16) : s.modSix.keyDown k = s.keyDown k := rfl
@[simp] theorem keyDown_skipIf (c : Bool) (k : Fin 16) : (s.skipIf c).keyDown k = s.keyDown k := by
  simp [keyDown]
@[simp] theorem keyDown_stackWrite (n : Nat) (w : Word) (k : Fin 16) : (s.stackWrite n w).keyDown k = s.keyDown k := by
  simp [keyDown]
@[simp] theorem keyDown_fbWrite (fi : Nat) (b : Byte) (k : Fin 16) : (s.fbWrite fi b).keyDown k = s.keyDown k := by
  simp [keyDown]
@[simp] theorem keyDown_fbClear (k : Fin 16) : s.fbClear.keyDown k = s.keyDown k := by
  simp [keyDown]
@[simp] theorem keyDown_tick (k : Fin 16) : s.tick.keyDown k = s.keyDown k := by
  simp [keyDown]

@[simp] theorem readByte_setV (r : Reg) (b : Byte) (c : Nat) : (s.setV r b).readByte c = s.readByte c := rfl
@[simp] theorem readByte_setFlag (r : Reg) (b : Byte) (c : Nat) : (s.setFlag r b).readByte c = s.readByte c := rfl
@[simp] theorem readByte_setPc (a : Word) (c : Nat) : (s.setPc a).readByte c = s.readByte c := rfl
@[simp] theorem readByte_setI (a : Word) (c : Nat) : (s.setI a).readByte c = s.readByte c := rfl
@[simp] theorem readByte_answer (r : Reply) (c : Nat) : (s.answer r).readByte c = s.readByte c := rfl
@[simp] theorem readByte_advance (c : Nat) : s.advance.readByte c = s.readByte c := rfl
@[simp] theorem readByte_setResultThenFlag (x : Reg) (b f : Byte) (c : Nat) : (s.setResultThenFlag x b f).readByte c = s.readByte c := rfl
@[simp] theorem readByte_modSix (c : Nat) : s.modSix.readByte c = s.readByte c := rfl
@[simp] theorem readByte_skipIf (b : Bool) (c : Nat) : (s.skipIf b).readByte c = s.readByte c := by
  simp [readByte]
@[simp] theorem readByte_tick (c : Nat) : s.tick.readByte c = s.readByte c := by
  simp [readByte]

end Sys2Proof.Machine.State
end

