-- ==== Sys2Proof/Laws/Memory.lean ====
section
/-! SUPPORT. The laws of memory: what a cell reads after a store, that every store keeps the canonical form, and the same for byte runs and the views of memory. -/

namespace Sys2Proof.Machine

namespace Memory

/-- A store changes the byte of its own cell and of no other. -/
theorem lookup_store (m : Memory) (a c : Nat) (b : Byte) (lo : Nat) (h : m.wfFrom lo = true) :
    (m.store a b).lookup c = if c = a then b else m.lookup c := by
  induction m generalizing lo with
  | nil =>
    simp only [store]
    split
    next => simp only [lookup]; split <;> simp_all
    next => simp only [lookup]
  | cons e rest ih =>
    obtain ⟨k, d⟩ := e
    simp only [wfFrom, Bool.and_eq_true, decide_eq_true_eq] at h
    obtain ⟨⟨⟨hlo, hk⟩, hd⟩, hrest⟩ := h
    have fresh : ∀ {l : Nat} {r : Memory}, r.wfFrom l = true → ∀ a < l, r.lookup a = background a := by
      intro l r hr a ha
      induction r generalizing l with
      | nil => rfl
      | cons e r ihr =>
        obtain ⟨k', d'⟩ := e
        simp only [wfFrom, Bool.and_eq_true, decide_eq_true_eq] at hr
        simp only [lookup]
        rw [if_neg (by omega)]
        exact ihr hr.2 (by omega)
    simp only [store]
    split
    · rename_i hak
      split
      · rename_i hb
        by_cases hc : c = a
        · subst hc
          simp only [lookup, if_true]
          rw [if_neg (by omega), fresh hrest c (by omega), hb]
        · simp [hc]
      · simp [lookup]
    · rename_i hak
      split
      · rename_i heq
        subst heq
        split
        · rename_i hb
          by_cases hc : c = a
          · subst hc
            rw [if_pos rfl, fresh hrest c (by omega), hb]
          · simp [lookup, hc]
        · by_cases hc : c = a <;> simp [lookup, hc]
      · rename_i hne
        simp only [lookup]
        by_cases hck : c = k
        · rw [if_pos hck, if_pos hck, if_neg (by omega)]
        · rw [if_neg hck, if_neg hck, ih (k + 1) hrest]

/-- A store of an in-range cell keeps the canonical form. -/
theorem wfFrom_store (m : Memory) (a : Nat) (b : Byte) (lo : Nat) (h : m.wfFrom lo = true)
    (hlo : lo ≤ a) (ha : a < Config.memSize) : (m.store a b).wfFrom lo = true := by
  induction m generalizing lo with
  | nil =>
    simp only [store]
    split <;> simp_all [wfFrom]
  | cons e rest ih =>
    obtain ⟨k, d⟩ := e
    have h' := h
    simp only [wfFrom, Bool.and_eq_true, decide_eq_true_eq] at h'
    obtain ⟨⟨⟨hlk, hk⟩, hd⟩, hrest⟩ := h'
    have weaken : ∀ {l l' : Nat} {r : Memory}, l ≤ l' → r.wfFrom l' = true → r.wfFrom l = true := by
      intro l l' r hl hr
      cases r with
      | nil => rfl
      | cons e r =>
        obtain ⟨k', d'⟩ := e
        simp only [wfFrom, Bool.and_eq_true, decide_eq_true_eq] at hr ⊢
        exact ⟨⟨⟨by omega, hr.1.1.2⟩, hr.1.2⟩, hr.2⟩
    simp only [store]
    split
    · rename_i hak
      split
      · exact h
      · rename_i hb
        simp only [wfFrom, Bool.and_eq_true, decide_eq_true_eq]
        exact ⟨⟨⟨hlo, ha⟩, hb⟩, ⟨⟨⟨by omega, hk⟩, hd⟩, hrest⟩⟩
    · split
      · rename_i hak heq
        subst heq
        split
        · exact weaken (by omega) hrest
        · rename_i hb
          simp only [wfFrom, Bool.and_eq_true, decide_eq_true_eq]
          exact ⟨⟨⟨hlo, ha⟩, hb⟩, hrest⟩
      · rename_i hak hne
        simp only [wfFrom, Bool.and_eq_true, decide_eq_true_eq]
        exact ⟨⟨⟨hlk, hk⟩, hd⟩, ih (k + 1) hrest (by omega)⟩

theorem cellOf_lt (a : Nat) : cellOf a < Config.memSize := Nat.mod_lt _ (by decide)

/-- Reading after a write: the written byte at the written cell, the old byte elsewhere (R62, R74). -/
theorem read_write (m : Memory) (a c : Nat) (b : Byte) (h : m.wf = true) :
    (m.write a b).read c = if cellOf c = cellOf a then b else m.read c :=
  lookup_store m _ _ b 0 h

/-- A write keeps the canonical form. -/
theorem wf_write (m : Memory) (a : Nat) (b : Byte) (h : m.wf = true) : (m.write a b).wf = true :=
  wfFrom_store m _ b 0 h (Nat.zero_le _) (cellOf_lt a)

/-- A run of byte writes keeps the canonical form. -/
theorem wf_writeList (m : Memory) (a : Nat) (bs : List Byte) (h : m.wf = true) :
    (m.writeList a bs).wf = true := by
  induction bs generalizing m a with
  | nil => exact h
  | cons b bs ih => exact ih _ _ (wf_write m a b h)

/-- A cell outside a run of byte writes reads as before. -/
theorem read_writeList_outside (m : Memory) (a c : Nat) (bs : List Byte) (h : m.wf = true)
    (hc : ∀ k < bs.length, cellOf c ≠ cellOf (a + k)) : (m.writeList a bs).read c = m.read c := by
  induction bs generalizing m a with
  | nil => rfl
  | cons b bs ih =>
    simp only [writeList]
    rw [ih _ _ (wf_write m a b h), read_write m a c b h, if_neg (by simpa using hc 0 (by simp))]
    intro k hk
    have := hc (k + 1) (by simpa using hk)
    simpa [Nat.add_assoc, Nat.add_comm 1 k] using this

/-- Byte `k` of a run of at most 4096 writes reads back. -/
theorem read_writeList_at (m : Memory) (a : Nat) (bs : List Byte) (h : m.wf = true)
    (hlen : bs.length ≤ Config.memSize) (k : Nat) (hk : k < bs.length) :
    (m.writeList a bs).read (a + k) = bs[k] := by
  induction bs generalizing m a k with
  | nil => simp at hk
  | cons b bs ih =>
    simp only [List.length_cons] at hlen hk
    simp only [writeList]
    cases k with
    | zero =>
      rw [read_writeList_outside _ _ _ _ (wf_write m a b h), read_write m a _ b h]
      · simp
      · intro j hj
        simp only [cellOf, Config.memSize] at *
        omega
    | succ k =>
      have := ih (m.write a b) (a + 1) (wf_write m a b h) (by omega) k (by omega)
      rw [show a + (k + 1) = a + 1 + k by omega, this]
      rfl

/-- Power-on memory lists nothing, which is canonical. -/
theorem wf_nil : Memory.wf [] = true := rfl

end Memory

@[simp] theorem length_zeroBytes (n : Nat) : (zeroBytes n).length = n := List.length_replicate

@[simp] theorem getElem_zeroBytes (n k : Nat) (h : k < (zeroBytes n).length) : (zeroBytes n)[k] = 0 :=
  List.getElem_replicate h

/-- The blank detached buffer reads 0 everywhere, also past its end (R68). -/
@[simp] theorem getD_blankDfb (fi : Nat) : (blankDfb[fi]?).getD 0 = 0 := by
  unfold blankDfb
  by_cases h : fi < 255
  · simp [h]
  · simp [Vector.getElem?_eq_none (show 255 ≤ fi by omega)]

namespace State

variable (s : State)

theorem readByte_writeByte (a c : Nat) (b : Byte) (h : s.memory.wf = true) :
    (s.writeByte a b).readByte c = if cellOf c = cellOf a then b else s.readByte c :=
  Memory.read_write s.memory a c b h

theorem readByte_writeBytes_outside (a c : Nat) (bs : List Byte) (h : s.memory.wf = true)
    (hc : ∀ k < bs.length, cellOf c ≠ cellOf (a + k)) :
    (s.writeBytes a bs).readByte c = s.readByte c :=
  Memory.read_writeList_outside s.memory a c bs h hc

theorem readByte_writeBytes_at (a : Nat) (bs : List Byte) (h : s.memory.wf = true)
    (hlen : bs.length ≤ Config.memSize) (k : Nat) (hk : k < bs.length) :
    (s.writeBytes a bs).readByte (a + k) = bs[k] :=
  Memory.read_writeList_at s.memory a bs h hlen k hk

theorem stackWrite_wf (n : Nat) (w : Word) (h : s.memory.wf = true) :
    (s.stackWrite n w).memory.wf = true := by
  unfold stackWrite
  split <;> exact Memory.wf_writeList _ _ _ h

theorem fbWrite_wf (fi : Nat) (b : Byte) (h : s.memory.wf = true) :
    (s.fbWrite fi b).memory.wf = true := by
  unfold fbWrite
  split
  · exact h
  · exact Memory.wf_write _ _ _ h

theorem fbClear_wf (h : s.memory.wf = true) : s.fbClear.memory.wf = true := by
  unfold fbClear
  split
  · exact h
  · rw [writeBytes_memory]
    exact Memory.wf_writeList _ _ _ h

end State

end Sys2Proof.Machine
end

