-- ==== Sys2Proof/Laws/Ops.lean ====
section
/-! SUPPORT. One lemma for each shared operation that says what it can do: register ranges, the loops over registers, the stack and framebuffer views, the halt tests, the tick and the raising of an error. -/

namespace Sys2Proof.Machine

/-! ### Register ranges -/

theorem mem_regRange (x r : Reg) : r ∈ regRange x ↔ r ≤ x := by
  simp [regRange]

theorem length_regRange : ∀ x : Reg, (regRange x).length = x.val + 1 := by decide

theorem getElem_regRange_eq (x : Reg) (k : Nat) (h : k < (regRange x).length) :
    ((regRange x)[k]).val = k := by
  have all : ∀ (x : Reg) (k : Fin 16), k.val < (regRange x).length → (regRange x)[k.val]? = some k := by
    decide
  have hk : k < 16 := by rw [length_regRange] at h; omega
  have := all x ⟨k, hk⟩ h
  rw [List.getElem?_eq_getElem h] at this
  exact congrArg Fin.val (Option.some.inj this)

namespace State

variable (s : State)

/-! ### Loops over registers -/

/-- A loop that writes V registers, each from a value fixed beforehand. -/
theorem foldl_setV (f : Reg → Byte) (ks : List Reg) (t : State) :
    (ks.foldl (fun t k => t.setV k (f k)) t =
      { t with v := (ks.foldl (fun t k => t.setV k (f k)) t).v }) ∧
    ∀ q, (ks.foldl (fun t k => t.setV k (f k)) t).getV q = if q ∈ ks then f q else t.getV q := by
  induction ks generalizing t with
  | nil => exact ⟨rfl, fun q => by simp⟩
  | cons k ks ih =>
    obtain ⟨h₁, h₂⟩ := ih (t.setV k (f k))
    refine ⟨by rw [List.foldl_cons, h₁]; rfl, fun q => ?_⟩
    rw [List.foldl_cons, h₂, getV_setV]
    by_cases hq : q ∈ ks
    · simp [hq]
    · by_cases hk : q = k
      · subst hk; simp [hq]
      · simp [hq, hk]

/-- A loop that writes flag registers, each from a value fixed beforehand. -/
theorem foldl_setFlag (f : Reg → Byte) (ks : List Reg) (t : State) :
    (ks.foldl (fun t k => t.setFlag k (f k)) t =
      { t with flag := (ks.foldl (fun t k => t.setFlag k (f k)) t).flag }) ∧
    ∀ q, (ks.foldl (fun t k => t.setFlag k (f k)) t).getFlag q = if q ∈ ks then f q else t.getFlag q := by
  induction ks generalizing t with
  | nil => exact ⟨rfl, fun q => by simp⟩
  | cons k ks ih =>
    obtain ⟨h₁, h₂⟩ := ih (t.setFlag k (f k))
    refine ⟨by rw [List.foldl_cons, h₁]; rfl, fun q => ?_⟩
    rw [List.foldl_cons, h₂]
    by_cases hq : q ∈ ks
    · simp [hq]
    · by_cases hk : q = k
      · subst hk; simp [hq]
      · simp [hq, hk, getFlag_setFlag_ne t (f k) hk]

theorem loadFrom_eq (ks : List Reg) : s.loadFrom ks = { s with v := (s.loadFrom ks).v } :=
  (foldl_setV (fun k => s.readByte (byteAddr s.i k.val)) ks s).1

theorem getV_loadFrom (ks : List Reg) (q : Reg) :
    (s.loadFrom ks).getV q = if q ∈ ks then s.readByte (byteAddr s.i q.val) else s.getV q :=
  (foldl_setV (fun k => s.readByte (byteAddr s.i k.val)) ks s).2 q

theorem saveFrom_eq (ks : List Reg) : s.saveFrom ks = { s with flag := (s.saveFrom ks).flag } :=
  (foldl_setFlag s.getV ks s).1

theorem getFlag_saveFrom (ks : List Reg) (q : Reg) :
    (s.saveFrom ks).getFlag q = if q ∈ ks then s.getV q else s.getFlag q :=
  (foldl_setFlag s.getV ks s).2 q

theorem restoreFrom_eq (ks : List Reg) : s.restoreFrom ks = { s with v := (s.restoreFrom ks).v } :=
  (foldl_setV s.getFlag ks s).1

theorem getV_restoreFrom (ks : List Reg) (q : Reg) :
    (s.restoreFrom ks).getV q = if q ∈ ks then s.getFlag q else s.getV q :=
  (foldl_setV s.getFlag ks s).2 q

/-! ### The stack view -/

/-- A stack write changes memory and nothing else. -/
theorem stackWrite_eq (n : Nat) (w : Word) :
    s.stackWrite n w = { s with memory := (s.stackWrite n w).memory } := by
  unfold stackWrite
  split <;> rfl

/-- A stack word reads back as it was written, in either byte order (R66). -/
theorem stackRead_stackWrite (n : Nat) (w : Word) (h : s.memory.wf = true) :
    (s.stackWrite n w).stackRead n = w := by
  have two : ∀ b c : Byte, (s.writeBytes (slotAddr n) [b, c]).readByte (slotAddr n) = b ∧
      (s.writeBytes (slotAddr n) [b, c]).readByte (slotAddr n + 1) = c := fun b c =>
    ⟨s.readByte_writeBytes_at (slotAddr n) [b, c] h (by simp [Config.memSize]) 0 (by simp),
     s.readByte_writeBytes_at (slotAddr n) [b, c] h (by simp [Config.memSize]) 1 (by simp)⟩
  unfold stackRead
  rw [stackWrite_params]
  cases ho : s.params.stackByteOrder with
  | little =>
    simp only [stackWrite, ho]
    rw [(two _ _).1, (two _ _).2, hiByte_append_loByte]
  | big =>
    simp only [stackWrite, ho]
    rw [(two _ _).1, (two _ _).2, hiByte_append_loByte]

/-- A stack write reaches the two cells of its slot and no other. -/
theorem stackWrite_outside (n : Nat) (w : Word) (h : s.memory.wf = true) (a : Nat)
    (h₀ : cellOf a ≠ cellOf (slotAddr n)) (h₁ : cellOf a ≠ cellOf (slotAddr n + 1)) :
    (s.stackWrite n w).readByte a = s.readByte a := by
  have two : ∀ b c : Byte, (s.writeBytes (slotAddr n) [b, c]).readByte a = s.readByte a := by
    intro b c
    apply s.readByte_writeBytes_outside _ _ _ h
    intro k hk
    have : k = 0 ∨ k = 1 := by simp at hk; omega
    rcases this with rfl | rfl
    · exact h₀
    · exact h₁
  unfold stackWrite
  split <;> exact two _ _

/-! ### The framebuffer view -/

/-- A framebuffer write changes memory when attached and the detached buffer when detached (R68). -/
theorem fbWrite_eq (fi : Nat) (b : Byte) :
    s.fbWrite fi b = { s with memory := (s.fbWrite fi b).memory, dfb := (s.fbWrite fi b).dfb } := by
  unfold fbWrite
  split <;> rfl

theorem fbWrite_attached (fi : Nat) (b : Byte) (h : s.fbDetached = false) :
    s.fbWrite fi b = s.writeByte (Config.fbBase + fi) b := by
  simp [fbWrite, h]

theorem fbWrite_detached (fi : Nat) (b : Byte) (h : s.fbDetached = true) :
    s.fbWrite fi b = { s with dfb := s.dfb.setIfInBounds fi b } := by
  simp [fbWrite, h]

/-- Reading the framebuffer after a write: the byte written, unless it has no storage (R68). -/
theorem fbRead_fbWrite (fi fj : Nat) (b : Byte) (h : s.memory.wf = true)
    (hi : fi < Config.fbSize) (hj : fj < Config.fbSize) :
    (s.fbWrite fi b).fbRead fj =
      if fj = fi ∧ (s.fbDetached = true → fi < Config.dfbSize) then b else s.fbRead fj := by
  simp only [Config.fbSize, Config.dfbSize] at *
  cases hd : s.fbDetached with
  | false =>
    rw [fbWrite_attached s fi b hd]
    simp only [fbRead, writeByte_fbDetached, hd, Bool.false_eq_true, if_false]
    rw [readByte_writeByte s _ _ b h]
    have : cellOf (Config.fbBase + fj) = cellOf (Config.fbBase + fi) ↔ fj = fi := by
      simp only [cellOf, Config.fbBase, Config.memSize]
      omega
    simp [this]
  | true =>
    rw [fbWrite_detached s fi b hd]
    simp only [fbRead, hd, if_true]
    by_cases hfi : fi < 255
    · by_cases hji : fj = fi
      · subst hji
        simp [hfi]
      · have : ¬ fi = fj := fun e => hji e.symm
        simp [hji, this]
    · have h255 : ¬ fj < 255 ∨ ¬ fi = fj := by omega
      by_cases hji : fi = fj
      · subst hji
        simp [hfi]
      · simp [hfi, hji]

/-- The framebuffer byte of a pixel on the screen exists in the picture (R67). -/
theorem pixelByte_lt {px py : Nat} (hx : px < 64) (hy : py < 32) : pixelByte px py < Config.fbSize := by
  simp only [pixelByte, Config.fbSize]
  omega

theorem wrapX_lt (b : Byte) (col : Nat) : wrapX b col < 64 := Nat.mod_lt _ (by decide)

theorem wrapY_lt (b : Byte) (row : Nat) : wrapY b row < 32 := Nat.mod_lt _ (by decide)

/-! ### Halt tests, errors and the tick -/

theorem inBounds_iff : s.inBounds = true ↔ 0x200 ≤ s.pc.toNat ∧ s.pc.toNat < 0x200 + s.romSize := by
  simp [inBounds]

theorem isSelfJump_iff (op a : Word) :
    isSelfJump op a = true ↔ fieldF op = 0x1#4 ∧ (fieldNNN op).toNat = a.toNat := by
  simp [isSelfJump]

theorem fatalError_eq_some (k : ErrorKind) :
    s.fatalError = some k ↔ s.reply = .error k ∧ k ≠ .romNotLoaded := by
  unfold fatalError
  split
  next h => simp only [h, reduceCtorEq, Reply.error.injEq, false_iff]; rintro ⟨rfl, hk⟩; exact hk rfl
  next j hj h =>
    simp only [h, Option.some.injEq, Reply.error.injEq]
    exact ⟨fun e => ⟨e, fun e' => hj (e.trans e')⟩, fun e => e.1⟩
  all_goals simp_all

/-- An error is a fault that carries its kind and the state as it stands (R269). -/
theorem raise_fault (k : ErrorKind) :
    ∃ f, s.raise k = .fault f ∧ f.kind = k ∧ f.after = s.answer (.error k) := by
  cases k <;> exact ⟨_, rfl, rfl, rfl⟩

theorem raise_eq_fault {k : ErrorKind} {f : Fault} (h : s.raise k = .fault f) :
    f.kind = k ∧ f.after = s.answer (.error k) := by
  obtain ⟨g, hg, hk⟩ := s.raise_fault k
  cases h.symm.trans hg
  exact hk

/-- The answer to an error records it: a fatal one stays pending, RomNotLoaded does not (R261, R270). -/
theorem fatalError_answer_error (k : ErrorKind) :
    (s.answer (.error k)).fatalError = if k = .romNotLoaded then none else some k := by
  cases k <;> rfl

/-- A tick changes the timers and the counter only. -/
theorem tick_eq : s.tick = { s with dt := s.tick.dt, st := s.tick.st, tickCounter := s.tick.tickCounter } := by
  simp only [tick]
  split <;> rfl

theorem tick_notSixth (h : (s.tickCounter + 1) % 6 ≠ 0) :
    s.tick = { s with tickCounter := s.tickCounter + 1 } := by
  simp only [tick]
  rw [if_neg h]

theorem countDown_toNat (b : Byte) : (countDown b).toNat = b.toNat - 1 := by
  unfold countDown
  split
  next h => simp [h]
  next h =>
    have h₀ : b.toNat ≠ 0 := fun e => h (BitVec.eq_of_toNat_eq e)
    have := b.isLt
    rw [BitVec.toNat_sub]
    simp
    omega

theorem tick_dt_toNat :
    s.tick.dt.toNat = s.dt.toNat - (if (s.tickCounter + 1) % 6 = 0 then 1 else 0) := by
  simp only [tick, Config.tickDivisor]
  split <;> simp [countDown_toNat]

theorem tick_st_toNat :
    s.tick.st.toNat = s.st.toNat - (if (s.tickCounter + 1) % 6 = 0 then 1 else 0) := by
  simp only [tick, Config.tickDivisor]
  split <;> simp [countDown_toNat]

/-- A tick raises the counter by one modulo 6, whether or not it clears it (R130). -/
theorem tick_tickCounter_mod : s.tick.tickCounter % 6 = (s.tickCounter + 1) % 6 := by
  simp only [tick, Config.tickDivisor]
  split
  next h =>
    change (if s.dt = 0 ∧ s.st = 0 then s.tickCounter + 1 else 0) % 6 = _
    split
    · rfl
    · rw [h]
  next => rfl

end State

end Sys2Proof.Machine
end

