-- ==== Sys2Proof/Laws/Display.lean ====
section
/-! SUPPORT. What drawing changes: one pixel, one row and a whole sprite, and the picture cleared. -/

namespace Sys2Proof.Machine.State

variable (s : State)

/-- What drawing and clearing may change: the V registers, memory and the detached buffer; the canonical form of
memory is kept, and each framebuffer changes only in its own mode. -/
structure DrawFrame (s t : State) : Prop where
  eq : t = { s with v := t.v, memory := t.memory, dfb := t.dfb }
  regs : ∀ r, r ≠ regF → t.getV r = s.getV r
  wf : s.memory.wf = true → t.memory.wf = true
  attached : s.fbDetached = false → t.dfb = s.dfb
  detached : s.fbDetached = true → t.memory = s.memory

theorem DrawFrame.refl : DrawFrame s s := ⟨rfl, fun _ _ => rfl, id, fun _ => rfl, fun _ => rfl⟩

theorem DrawFrame.fbDetached {s t : State} (h : DrawFrame s t) : t.fbDetached = s.fbDetached := by
  rw [h.eq]

theorem DrawFrame.i {s t : State} (h : DrawFrame s t) : t.i = s.i := by
  rw [h.eq]

theorem DrawFrame.trans {s t u : State} (h : DrawFrame s t) (k : DrawFrame t u) : DrawFrame s u where
  eq := by rw [k.eq, h.eq]
  regs r hr := (k.regs r hr).trans (h.regs r hr)
  wf hs := k.wf (h.wf hs)
  attached hs := (k.attached (h.fbDetached.trans hs)).trans (h.attached hs)
  detached hs := (k.detached (h.fbDetached.trans hs)).trans (h.detached hs)

theorem DrawFrame.setV_regF (b : Byte) : DrawFrame s (s.setV regF b) :=
  ⟨rfl, fun _ hr => s.getV_setV_ne b hr, id, fun _ => rfl, fun _ => rfl⟩

theorem DrawFrame.fbWrite (fi : Nat) (b : Byte) : DrawFrame s (s.fbWrite fi b) where
  eq := by unfold State.fbWrite; split <;> rfl
  regs _ _ := by simp
  wf := s.fbWrite_wf fi b
  attached h := by rw [s.fbWrite_attached fi b h]; rfl
  detached h := by rw [s.fbWrite_detached fi b h]

theorem DrawFrame.writeBytes (a : Nat) (bs : List Byte) (h : s.fbDetached = false) :
    DrawFrame s (s.writeBytes a bs) :=
  ⟨rfl, fun _ _ => rfl, Memory.wf_writeList _ _ _, fun _ => rfl, fun h' => by rw [h] at h'; cases h'⟩

/-- A loop whose every pass keeps the frame keeps it. -/
theorem DrawFrame.foldl (g : State → Nat → State) (hg : ∀ s k, DrawFrame s (g s k)) (ks : List Nat) :
    DrawFrame s (ks.foldl g s) := by
  induction ks generalizing s with
  | nil => exact .refl s
  | cons k ks ih => exact (hg s k).trans (ih _)

theorem drawPixel_frame (startX startY : Byte) (row : Nat) (b : Byte) (col : Nat) :
    DrawFrame s (s.drawPixel startX startY row b col) := by
  unfold drawPixel
  split
  · dsimp only
    split
    · exact (DrawFrame.setV_regF s 1).trans (.fbWrite _ _ _)
    · exact .fbWrite _ _ _
  · exact .refl s

theorem drawRow_frame (startX startY : Byte) (row : Nat) : DrawFrame s (s.drawRow startX startY row) :=
  .foldl s _ (fun t k => t.drawPixel_frame startX startY row _ k) _

theorem drawSprite_frame (startX startY : Byte) (n : Nat) : DrawFrame s (s.drawSprite startX startY n) :=
  .foldl s _ (fun t k => t.drawRow_frame startX startY k) _

/-- The rows of a sprite are those before the last, then the last (R201). -/
theorem drawSprite_succ (startX startY : Byte) (n : Nat) :
    s.drawSprite startX startY (n + 1) = (s.drawSprite startX startY n).drawRow startX startY n := by
  simp only [drawSprite, List.range_succ, List.foldl_append, List.foldl_cons, List.foldl_nil]

/-- A cleared framebuffer changes memory when attached and the detached buffer when detached (R200). -/
theorem fbClear_frame : DrawFrame s s.fbClear := by
  unfold fbClear
  split
  next hd => exact ⟨rfl, fun _ _ => rfl, id, fun h => absurd (hd.symm.trans h) (by decide), fun _ => rfl⟩
  next hd => exact .writeBytes s _ _ (by simpa using hd)

/-- Every byte of a cleared framebuffer reads 0, in either mode (R68). -/
theorem fbRead_fbClear (h : s.memory.wf = true) (fi : Nat) (hi : fi < Config.fbSize) :
    s.fbClear.fbRead fi = 0 := by
  unfold fbRead
  rw [fbClear_fbDetached]
  cases hd : s.fbDetached with
  | true =>
    simp only [fbClear, hd, if_true]
    exact getD_blankDfb fi
  | false =>
    simp only [fbClear, hd, Bool.false_eq_true, if_false]
    rw [s.readByte_writeBytes_at _ _ h (by rw [length_zeroBytes]; decide) fi
      (by rw [length_zeroBytes]; exact hi)]
    exact getElem_zeroBytes _ _ _

end Sys2Proof.Machine.State
end

