-- ==== Sys2Proof/Laws/Exec.lean ====
section
/-! SUPPORT. What the instructions can do, said once for all of them: none refuses, which two can fault, what none changes, and that each keeps memory canonical. -/

namespace Sys2Proof.Machine

/-- No meaning refuses. -/
theorem exec_ne_refused (i : Instr) (s : State) (r : Refusal) : exec i s ≠ .refused r := by
  cases i <;> simp only [exec]
  case ret =>
    unfold execRet; split
    · obtain ⟨f, hf, -⟩ := s.raise_fault s.underflowKind; simp [hf]
    · simp
  case call nnn =>
    unfold execCall; split
    · obtain ⟨f, hf, -⟩ := s.raise_fault .stackOverflow; simp [hf]
    · simp
  case ldVKey x => unfold execLdVKey; split <;> simp
  all_goals exact nofun

/-- Only a call on a full stack and a return on an empty one end in an error (R125). -/
theorem exec_fault {i : Instr} {s : State} {f : Fault} (h : exec i s = .fault f) :
    (∃ nnn, i = .call nnn ∧ 48 ≤ s.sp ∧ s.raise .stackOverflow = .fault f) ∨
    (i = .ret ∧ s.sp = 0 ∧ s.raise s.underflowKind = .fault f) := by
  cases i <;> simp only [exec] at h
  case ret =>
    unfold execRet at h; split at h
    · exact .inr ⟨rfl, ‹_›, h⟩
    · cases h
  case call nnn =>
    unfold execCall at h; split at h
    · exact .inl ⟨nnn, rfl, ‹_›, h⟩
    · cases h
  case ldVKey x => unfold execLdVKey at h; split at h <;> cases h
  all_goals cases h

/-- What no instruction changes, as one record equation: only these fields may differ. -/
theorem exec_next_eq {i : Instr} {s t : State} (h : exec i s = .next t) :
    t = { s with v := t.v, flag := t.flag, i := t.i, pc := t.pc, sp := t.sp, dt := t.dt, st := t.st,
                 dfb := t.dfb, memory := t.memory, draws := t.draws } := by
  cases i <;> simp only [exec] at h
  case ret =>
    unfold execRet at h; split at h
    · obtain ⟨f, hf, -⟩ := s.raise_fault s.underflowKind; rw [hf] at h; cases h
    · cases h; rfl
  case call nnn =>
    unfold execCall at h; split at h
    · obtain ⟨f, hf, -⟩ := s.raise_fault .stackOverflow; rw [hf] at h; cases h
    · cases h; rw [State.stackWrite_eq]
  case ldVKey x => unfold execLdVKey at h; split at h <;> cases h <;> rfl
  case cls => cases h; rw [s.fbClear_frame.eq]
  case drw x y n => cases h; rw [((s.setV regF 0).drawSprite_frame _ _ n).eq]; rfl
  case seImm x nn => cases h; simp only [State.skipIf]; split <;> rfl
  case sneImm x nn => cases h; simp only [State.skipIf]; split <;> rfl
  case seReg x y => cases h; simp only [State.skipIf]; split <;> rfl
  case sneReg x y => cases h; simp only [State.skipIf]; split <;> rfl
  case skp x => cases h; simp only [State.skipIf]; split <;> rfl
  case sknp x => cases h; simp only [State.skipIf]; split <;> rfl
  case loadRegs x => cases h; rw [State.setI, s.loadFrom_eq]
  case saveFlags x => cases h; rw [s.saveFrom_eq]
  case restoreFlags x => cases h; rw [s.restoreFrom_eq]
  all_goals cases h; rfl

/-- Every instruction keeps the canonical form of memory. -/
theorem exec_memory_wf {i : Instr} {s t : State} (h : exec i s = .next t) (hs : s.memory.wf = true) :
    t.memory.wf = true := by
  cases i <;> simp only [exec] at h
  case ret =>
    unfold execRet at h; split at h
    · obtain ⟨f, hf, -⟩ := s.raise_fault s.underflowKind; rw [hf] at h; cases h
    · cases h; exact hs
  case call nnn =>
    unfold execCall at h; split at h
    · obtain ⟨f, hf, -⟩ := s.raise_fault .stackOverflow; rw [hf] at h; cases h
    · cases h; exact s.stackWrite_wf _ _ hs
  case ldVKey x => unfold execLdVKey at h; split at h <;> cases h <;> exact hs
  case cls => cases h; exact s.fbClear_wf hs
  case drw x y n => cases h; exact ((s.setV regF 0).drawSprite_frame _ _ n).wf hs
  case ldBcd x => cases h; exact Memory.wf_writeList _ _ _ hs
  case storeRegs x => cases h; exact Memory.wf_writeList _ _ _ hs
  case seImm x nn => cases h; simpa using hs
  case sneImm x nn => cases h; simpa using hs
  case seReg x y => cases h; simpa using hs
  case sneReg x y => cases h; simpa using hs
  case skp x => cases h; simpa using hs
  case sknp x => cases h; simpa using hs
  case loadRegs x => cases h; rw [State.setI, s.loadFrom_eq]; exact hs
  case saveFlags x => cases h; rw [s.saveFrom_eq]; exact hs
  case restoreFlags x => cases h; rw [s.restoreFrom_eq]; exact hs
  all_goals cases h; exact hs

end Sys2Proof.Machine
end

