-- ==== Sys2Proof/Laws/Host.lean ====
section
/-! SUPPORT. What `Reset()` and `LoadROM` do to each field, and that they keep memory canonical. -/

namespace Sys2Proof.Machine.State

variable (s : State)

/-! ### `Reset()` (R291) -/

@[simp] theorem resetMachine_v : s.resetMachine.v = Vector.replicate 16 0 := by
  simp only [resetMachine, writeBytes_v, fbClear_v]

@[simp] theorem resetMachine_flag : s.resetMachine.flag = Vector.replicate 16 0 := by
  simp only [resetMachine, writeBytes_flag, fbClear_flag]

@[simp] theorem resetMachine_i : s.resetMachine.i = 0 := by
  simp only [resetMachine, writeBytes_i, fbClear_i]

@[simp] theorem resetMachine_sp : s.resetMachine.sp = 0 := by
  simp only [resetMachine, writeBytes_sp, fbClear_sp]

@[simp] theorem resetMachine_dt : s.resetMachine.dt = 0 := by
  simp only [resetMachine, writeBytes_dt, fbClear_dt]

@[simp] theorem resetMachine_st : s.resetMachine.st = 0 := by
  simp only [resetMachine, writeBytes_st, fbClear_st]

@[simp] theorem resetMachine_tickCounter : s.resetMachine.tickCounter = 0 := by
  simp only [resetMachine, writeBytes_tickCounter, fbClear_tickCounter]

@[simp] theorem resetMachine_pc : s.resetMachine.pc = s.pc := by
  simp only [resetMachine, writeBytes_pc, fbClear_pc]

@[simp] theorem resetMachine_keyState : s.resetMachine.keyState = s.keyState := by
  simp only [resetMachine, writeBytes_keyState, fbClear_keyState]

@[simp] theorem resetMachine_romLoaded : s.resetMachine.romLoaded = s.romLoaded := by
  simp only [resetMachine, writeBytes_romLoaded, fbClear_romLoaded]

@[simp] theorem resetMachine_romSize : s.resetMachine.romSize = s.romSize := by
  simp only [resetMachine, writeBytes_romSize, fbClear_romSize]

@[simp] theorem resetMachine_fbDetached : s.resetMachine.fbDetached = s.fbDetached := by
  simp only [resetMachine, writeBytes_fbDetached, fbClear_fbDetached]

@[simp] theorem resetMachine_params : s.resetMachine.params = s.params := by
  simp only [resetMachine, writeBytes_params, fbClear_params]

@[simp] theorem resetMachine_draws : s.resetMachine.draws = s.draws := by
  simp only [resetMachine, writeBytes_draws, fbClear_draws]

@[simp] theorem resetMachine_reply : s.resetMachine.reply = s.reply := by
  simp only [resetMachine, writeBytes_reply, fbClear_reply]

/-- The detached buffer after `Reset()`: blank when detached, as it was when attached. -/
theorem resetMachine_dfb : s.resetMachine.dfb = if s.fbDetached then blankDfb else s.dfb := by
  unfold resetMachine fbClear
  dsimp only
  split <;> rfl

theorem resetMachine_wf (h : s.memory.wf = true) : s.resetMachine.memory.wf = true := by
  simp only [resetMachine, writeBytes_memory]
  refine Memory.wf_writeList _ _ _ (fbClear_wf _ ?_)
  exact h

theorem resetUnlessFirst_wf (h : s.memory.wf = true) : s.resetUnlessFirst.memory.wf = true := by
  unfold resetUnlessFirst
  split
  · exact s.resetMachine_wf h
  · exact h

/-! ### `LoadROM` (R292) -/

theorem oversized_iff (len : Nat) : oversized len = true ↔ 0xF00 ≤ 0x200 + len := by
  simp [oversized]

/-- A ROM that is copied: the program bytes over the state of before, after `Reset()` on a later load. -/
theorem loadRom_copied (bs : List Byte) (h : oversized bs.length = false) :
    s.loadRom bs = ({ s.resetUnlessFirst with
      romLoaded := true, romSize := bs.length, reply := .ready } : State).writeBytes Config.entryBase bs := by
  simp [loadRom, h]

/-- An oversized ROM: the detached buffer, blank, and memory as it was. -/
theorem loadRom_oversized (bs : List Byte) (h : oversized bs.length = true) :
    s.loadRom bs = { s.resetUnlessFirst with
      romLoaded := true, romSize := bs.length, reply := .ready, fbDetached := true, dfb := blankDfb } := by
  simp [loadRom, h]

/-- A ROM load ends a pending error (R270). -/
@[simp] theorem loadRom_reply (bs : List Byte) : (s.loadRom bs).reply = .ready := by
  unfold loadRom
  dsimp only
  split <;> rfl

theorem loadRom_wf (bs : List Byte) (h : s.memory.wf = true) : (s.loadRom bs).memory.wf = true := by
  cases ho : oversized bs.length with
  | false => rw [loadRom_copied s bs ho]; exact Memory.wf_writeList _ _ _ (s.resetUnlessFirst_wf h)
  | true => rw [loadRom_oversized s bs ho]; exact s.resetUnlessFirst_wf h

end Sys2Proof.Machine.State
end

