-- ==== Sys2Proof/Laws/PerInstr.lean ====
section
/-! SUPPORT. Facts about every instruction as syntax, one lemma a constructor. -/

namespace Sys2Proof.Laws

/-- The encoder puts every instruction in its own row of the opcode map (R95). -/
def EncodedRow.Statement (i : Instr) : Prop := i.row ∈ opcodeRows ∧ i.row.selects (encode i) = true

namespace EncodedRow

theorem nop : Statement .nop :=
  ⟨by simp [Instr.row, opcodeRows, opcodeRowsLow, opcodeRowsMid, opcodeRowsHigh], by
    simp [Instr.row, Row.selects, encode]⟩

theorem cls : Statement .cls :=
  ⟨by simp [Instr.row, opcodeRows, opcodeRowsLow, opcodeRowsMid, opcodeRowsHigh], by
    simp [Instr.row, Row.selects, encode, and_maskAll]⟩

theorem ret : Statement .ret :=
  ⟨by simp [Instr.row, opcodeRows, opcodeRowsLow, opcodeRowsMid, opcodeRowsHigh], by
    simp [Instr.row, Row.selects, encode, and_maskAll]⟩

theorem jp (nnn : Addr) : Statement (.jp nnn) :=
  ⟨by simp [Instr.row, opcodeRows, opcodeRowsLow, opcodeRowsMid, opcodeRowsHigh], by
    simp [Instr.row, Row.selects, encode, and_maskF]⟩

theorem call (nnn : Addr) : Statement (.call nnn) :=
  ⟨by simp [Instr.row, opcodeRows, opcodeRowsLow, opcodeRowsMid, opcodeRowsHigh], by
    simp [Instr.row, Row.selects, encode, and_maskF]⟩

theorem seImm (x : Reg) (nn : Byte) : Statement (.seImm x nn) :=
  ⟨by simp [Instr.row, opcodeRows, opcodeRowsLow, opcodeRowsMid, opcodeRowsHigh], by
    simp [Instr.row, Row.selects, encode, and_maskF]⟩

theorem sneImm (x : Reg) (nn : Byte) : Statement (.sneImm x nn) :=
  ⟨by simp [Instr.row, opcodeRows, opcodeRowsLow, opcodeRowsMid, opcodeRowsHigh], by
    simp [Instr.row, Row.selects, encode, and_maskF]⟩

theorem seReg (x : Reg) (y : Reg) : Statement (.seReg x y) :=
  ⟨by simp [Instr.row, opcodeRows, opcodeRowsLow, opcodeRowsMid, opcodeRowsHigh], by
    simp [Instr.row, Row.selects, encode, and_maskFN]⟩

theorem ldImm (x : Reg) (nn : Byte) : Statement (.ldImm x nn) :=
  ⟨by simp [Instr.row, opcodeRows, opcodeRowsLow, opcodeRowsMid, opcodeRowsHigh], by
    simp [Instr.row, Row.selects, encode, and_maskF]⟩

theorem addImm (x : Reg) (nn : Byte) : Statement (.addImm x nn) :=
  ⟨by simp [Instr.row, opcodeRows, opcodeRowsLow, opcodeRowsMid, opcodeRowsHigh], by
    simp [Instr.row, Row.selects, encode, and_maskF]⟩

theorem ldReg (x : Reg) (y : Reg) : Statement (.ldReg x y) :=
  ⟨by simp [Instr.row, opcodeRows, opcodeRowsLow, opcodeRowsMid, opcodeRowsHigh], by
    simp [Instr.row, Row.selects, encode, and_maskFN]⟩

theorem orReg (x : Reg) (y : Reg) : Statement (.orReg x y) :=
  ⟨by simp [Instr.row, opcodeRows, opcodeRowsLow, opcodeRowsMid, opcodeRowsHigh], by
    simp [Instr.row, Row.selects, encode, and_maskFN]⟩

theorem andReg (x : Reg) (y : Reg) : Statement (.andReg x y) :=
  ⟨by simp [Instr.row, opcodeRows, opcodeRowsLow, opcodeRowsMid, opcodeRowsHigh], by
    simp [Instr.row, Row.selects, encode, and_maskFN]⟩

theorem xorReg (x : Reg) (y : Reg) : Statement (.xorReg x y) :=
  ⟨by simp [Instr.row, opcodeRows, opcodeRowsLow, opcodeRowsMid, opcodeRowsHigh], by
    simp [Instr.row, Row.selects, encode, and_maskFN]⟩

theorem addReg (x : Reg) (y : Reg) : Statement (.addReg x y) :=
  ⟨by simp [Instr.row, opcodeRows, opcodeRowsLow, opcodeRowsMid, opcodeRowsHigh], by
    simp [Instr.row, Row.selects, encode, and_maskFN]⟩

theorem subReg (x : Reg) (y : Reg) : Statement (.subReg x y) :=
  ⟨by simp [Instr.row, opcodeRows, opcodeRowsLow, opcodeRowsMid, opcodeRowsHigh], by
    simp [Instr.row, Row.selects, encode, and_maskFN]⟩

theorem shrReg (x : Reg) (y : Reg) : Statement (.shrReg x y) :=
  ⟨by simp [Instr.row, opcodeRows, opcodeRowsLow, opcodeRowsMid, opcodeRowsHigh], by
    simp [Instr.row, Row.selects, encode, and_maskFN]⟩

theorem subnReg (x : Reg) (y : Reg) : Statement (.subnReg x y) :=
  ⟨by simp [Instr.row, opcodeRows, opcodeRowsLow, opcodeRowsMid, opcodeRowsHigh], by
    simp [Instr.row, Row.selects, encode, and_maskFN]⟩

theorem shlReg (x : Reg) (y : Reg) : Statement (.shlReg x y) :=
  ⟨by simp [Instr.row, opcodeRows, opcodeRowsLow, opcodeRowsMid, opcodeRowsHigh], by
    simp [Instr.row, Row.selects, encode, and_maskFN]⟩

theorem sneReg (x : Reg) (y : Reg) : Statement (.sneReg x y) :=
  ⟨by simp [Instr.row, opcodeRows, opcodeRowsLow, opcodeRowsMid, opcodeRowsHigh], by
    simp [Instr.row, Row.selects, encode, and_maskFN]⟩

theorem ldI (nnn : Addr) : Statement (.ldI nnn) :=
  ⟨by simp [Instr.row, opcodeRows, opcodeRowsLow, opcodeRowsMid, opcodeRowsHigh], by
    simp [Instr.row, Row.selects, encode, and_maskF]⟩

theorem jpV0 (nnn : Addr) : Statement (.jpV0 nnn) :=
  ⟨by simp [Instr.row, opcodeRows, opcodeRowsLow, opcodeRowsMid, opcodeRowsHigh], by
    simp [Instr.row, Row.selects, encode, and_maskF]⟩

theorem rnd (x : Reg) (nn : Byte) : Statement (.rnd x nn) :=
  ⟨by simp [Instr.row, opcodeRows, opcodeRowsLow, opcodeRowsMid, opcodeRowsHigh], by
    simp [Instr.row, Row.selects, encode, and_maskF]⟩

theorem drw (x : Reg) (y : Reg) (n : Nat) : Statement (.drw x y n) :=
  ⟨by simp [Instr.row, opcodeRows, opcodeRowsLow, opcodeRowsMid, opcodeRowsHigh], by
    simp [Instr.row, Row.selects, encode, and_maskF]⟩

theorem skp (x : Reg) : Statement (.skp x) :=
  ⟨by simp [Instr.row, opcodeRows, opcodeRowsLow, opcodeRowsMid, opcodeRowsHigh], by
    simp [Instr.row, Row.selects, encode, and_maskFNN]⟩

theorem sknp (x : Reg) : Statement (.sknp x) :=
  ⟨by simp [Instr.row, opcodeRows, opcodeRowsLow, opcodeRowsMid, opcodeRowsHigh], by
    simp [Instr.row, Row.selects, encode, and_maskFNN]⟩

theorem ldVDt (x : Reg) : Statement (.ldVDt x) :=
  ⟨by simp [Instr.row, opcodeRows, opcodeRowsLow, opcodeRowsMid, opcodeRowsHigh], by
    simp [Instr.row, Row.selects, encode, and_maskFNN]⟩

theorem ldVKey (x : Reg) : Statement (.ldVKey x) :=
  ⟨by simp [Instr.row, opcodeRows, opcodeRowsLow, opcodeRowsMid, opcodeRowsHigh], by
    simp [Instr.row, Row.selects, encode, and_maskFNN]⟩

theorem ldDtV (x : Reg) : Statement (.ldDtV x) :=
  ⟨by simp [Instr.row, opcodeRows, opcodeRowsLow, opcodeRowsMid, opcodeRowsHigh], by
    simp [Instr.row, Row.selects, encode, and_maskFNN]⟩

theorem ldStV (x : Reg) : Statement (.ldStV x) :=
  ⟨by simp [Instr.row, opcodeRows, opcodeRowsLow, opcodeRowsMid, opcodeRowsHigh], by
    simp [Instr.row, Row.selects, encode, and_maskFNN]⟩

theorem addI (x : Reg) : Statement (.addI x) :=
  ⟨by simp [Instr.row, opcodeRows, opcodeRowsLow, opcodeRowsMid, opcodeRowsHigh], by
    simp [Instr.row, Row.selects, encode, and_maskFNN]⟩

theorem ldFont (x : Reg) : Statement (.ldFont x) :=
  ⟨by simp [Instr.row, opcodeRows, opcodeRowsLow, opcodeRowsMid, opcodeRowsHigh], by
    simp [Instr.row, Row.selects, encode, and_maskFNN]⟩

theorem ldBcd (x : Reg) : Statement (.ldBcd x) :=
  ⟨by simp [Instr.row, opcodeRows, opcodeRowsLow, opcodeRowsMid, opcodeRowsHigh], by
    simp [Instr.row, Row.selects, encode, and_maskFNN]⟩

theorem storeRegs (x : Reg) : Statement (.storeRegs x) :=
  ⟨by simp [Instr.row, opcodeRows, opcodeRowsLow, opcodeRowsMid, opcodeRowsHigh], by
    simp [Instr.row, Row.selects, encode, and_maskFNN]⟩

theorem loadRegs (x : Reg) : Statement (.loadRegs x) :=
  ⟨by simp [Instr.row, opcodeRows, opcodeRowsLow, opcodeRowsMid, opcodeRowsHigh], by
    simp [Instr.row, Row.selects, encode, and_maskFNN]⟩

theorem saveFlags (x : Reg) : Statement (.saveFlags x) :=
  ⟨by simp [Instr.row, opcodeRows, opcodeRowsLow, opcodeRowsMid, opcodeRowsHigh], by
    simp [Instr.row, Row.selects, encode, and_maskFNN]⟩

theorem restoreFlags (x : Reg) : Statement (.restoreFlags x) :=
  ⟨by simp [Instr.row, opcodeRows, opcodeRowsLow, opcodeRowsMid, opcodeRowsHigh], by
    simp [Instr.row, Row.selects, encode, and_maskFNN]⟩

end EncodedRow

end Sys2Proof.Laws
end

