-- ==== Sys2Proof/Laws/Picture.lean ====
section
/-! SUPPORT. What drawing does to the picture, pixel by pixel: one column, one row and a whole sprite, each said as the pixels that change and the collision reported. -/

namespace Sys2Proof.Machine

theorem pixelCollides_mask (b : Byte) (x : Nat) :
    pixelCollides b (pixelMask x) = b.getLsbD (7 - x % 8) := by
  have h : ∀ k, k < 8 → ∀ b : Byte, pixelCollides b (0x80#8 >>> k) = b.getLsbD (7 - k) := by
    decide +kernel
  exact h _ (Nat.mod_lt _ (by decide)) b

/-- A toggled byte changes in the toggled pixel alone. -/
theorem pixelCollides_xor_mask (b : Byte) (x y : Nat) :
    pixelCollides (b ^^^ pixelMask x) (pixelMask y) ≠ pixelCollides b (pixelMask y) ↔ y % 8 = x % 8 := by
  have h : ∀ k, k < 8 → ∀ j, j < 8 → ((0x80#8 >>> k).getLsbD (7 - j) = true ↔ j = k) := by decide
  rw [pixelCollides_mask, pixelCollides_mask, BitVec.getLsbD_xor, pixelMask,
    ← h _ (Nat.mod_lt _ (by decide)) _ (Nat.mod_lt _ (by decide))]
  cases b.getLsbD (7 - y % 8) <;> simp

theorem wrapX_inj (b : Byte) {c d : Nat} (hc : c < 8) (hd : d < 8) (h : wrapX b c = wrapX b d) :
    c = d := by
  simp only [wrapX, Config.screenW] at h
  omega

theorem wrapY_inj (b : Byte) {c d : Nat} (hc : c < 32) (hd : d < 32) (h : wrapY b c = wrapY b d) :
    c = d := by
  simp only [wrapY, Config.screenH] at h
  omega

/-- Two changes in a row are a change when exactly one of them happens. -/
theorem change_trans {a b c : Bool} {P Q : Prop} (h : b ≠ a ↔ P) (k : c ≠ b ↔ Q) :
    c ≠ a ↔ ¬ (P ↔ Q) := by
  rw [← h, ← k]
  clear h k
  revert a b c
  decide

theorem hasStorage_congr {s t : State} (h : t.fbDetached = s.fbDetached) (px py : Nat) :
    hasStorage t px py ↔ hasStorage s px py := by
  unfold hasStorage
  rw [h]

namespace State

variable (s : State)

/-- A pixel without storage is dark (R68). -/
theorem pixel_of_noStorage {px py : Nat} (h : ¬ hasStorage s px py) : s.pixel px py = false := by
  unfold hasStorage at h
  simp only [Classical.not_imp, Config.dfbSize] at h
  unfold pixel fbRead
  rw [if_pos h.1, Vector.getElem?_eq_none (by omega)]
  simp [pixelCollides]

/-- Toggling a byte's bit changes that pixel, if it has storage, and no other. -/
theorem pixel_toggle {px py qx qy : Nat} (hw : s.memory.wf = true) (hpx : px < 64) (hpy : py < 32)
    (hqx : qx < 64) (hqy : qy < 32) :
    (s.fbWrite (pixelByte qx qy) (s.fbRead (pixelByte qx qy) ^^^ pixelMask qx)).pixel px py ≠ s.pixel px py ↔
      px = qx ∧ py = qy ∧ hasStorage s px py := by
  unfold pixel
  rw [s.fbRead_fbWrite _ _ _ hw (pixelByte_lt hqx hqy) (pixelByte_lt hpx hpy)]
  by_cases hb : pixelByte px py = pixelByte qx qy
  · have hq : py = qy ∧ px / 8 = qx / 8 := by simp only [pixelByte] at hb; omega
    by_cases hs : s.fbDetached = true → pixelByte qx qy < Config.dfbSize
    · rw [if_pos ⟨hb, hs⟩, hb, pixelCollides_xor_mask]
      have hp : hasStorage s px py := by unfold hasStorage; rw [hb]; exact hs
      exact ⟨fun h => ⟨by omega, hq.1, hp⟩, fun h => by rw [h.1]⟩
    · have hp : ¬ hasStorage s px py := by unfold hasStorage; rw [hb]; exact hs
      rw [if_neg fun h => hs h.2]
      simp [hp]
  · rw [if_neg fun h => hb h.1]
    simp only [ne_eq, not_true_eq_false, false_iff]
    rintro ⟨rfl, rfl, -⟩
    exact hb rfl

/-- One column of a sprite changes the pixel it lights, if that has storage. -/
theorem pixel_drawPixel (startX startY : Byte) (row : Nat) (b : Byte) (col : Nat) {px py : Nat}
    (hw : s.memory.wf = true) (hpx : px < 64) (hpy : py < 32) :
    (s.drawPixel startX startY row b col).pixel px py ≠ s.pixel px py ↔
      hasStorage s px py ∧ wrapX startX col = px ∧ wrapY startY row = py ∧ spriteBit b col = true := by
  unfold drawPixel
  by_cases hb : spriteBit b col = true
  · have ht (t : State) (ht : t.memory.wf = true) :=
      pixel_toggle t ht hpx hpy (wrapX_lt startX col) (wrapY_lt startY row)
    simp only [hb, if_true, and_true]
    refine Iff.trans ?_ (show px = wrapX startX col ∧ py = wrapY startY row ∧ hasStorage s px py ↔ _ by
      rw [eq_comm, @eq_comm _ py]; constructor
      · rintro ⟨h, k, l⟩; exact ⟨l, h, k⟩
      · rintro ⟨l, h, k⟩; exact ⟨h, k, l⟩)
    split
    · exact ht (s.setV regF 1) hw
    · exact ht s hw
  · rw [if_neg hb]
    simp [hb]

/-- One column sets VF exactly when it lights a lit pixel. -/
theorem getV_drawPixel (startX startY : Byte) (row : Nat) (b : Byte) (col : Nat) :
    (s.drawPixel startX startY row b col).getV regF = 1 ↔ s.getV regF = 1 ∨
      spriteBit b col = true ∧ s.pixel (wrapX startX col) (wrapY startY row) = true := by
  unfold drawPixel
  by_cases hb : spriteBit b col = true
  · by_cases hp : s.pixel (wrapX startX col) (wrapY startY row) = true
    · have hc := hp
      unfold pixel at hc
      simp [hb, hc, hp]
    · have hc := hp
      unfold pixel at hc
      simp [hb, hc, hp]
  · simp [hb]

/-- The first `m` columns of a row. -/
theorem drawColumns (startX startY : Byte) (row : Nat) (b : Byte) (m : Nat) (hm : m ≤ 8)
    (hw : s.memory.wf = true) :
    (∀ px py, px < 64 → py < 32 →
      (((List.range m).foldl (State.drawPixel startX startY row b) s).pixel px py ≠ s.pixel px py ↔
        hasStorage s px py ∧ ∃ col, col < m ∧ wrapX startX col = px ∧ wrapY startY row = py ∧
          spriteBit b col = true)) ∧
    (((List.range m).foldl (State.drawPixel startX startY row b) s).getV regF = 1 ↔ s.getV regF = 1 ∨
      ∃ col, col < m ∧ spriteBit b col = true ∧
        s.pixel (wrapX startX col) (wrapY startY row) = true) := by
  induction m with
  | zero => simp
  | succ m ih =>
    obtain ⟨hp, hv⟩ := ih (by omega)
    rw [List.range_succ, List.foldl_append, List.foldl_cons, List.foldl_nil]
    generalize ht : (List.range m).foldl (State.drawPixel startX startY row b) s = t at *
    have hf : DrawFrame s t := by
      rw [← ht]
      exact .foldl s _ (fun t k => t.drawPixel_frame startX startY row b k) _
    have hfresh {px : Nat} (h : wrapX startX m = px) :
        ¬ ∃ col, col < m ∧ wrapX startX col = px ∧ wrapY startY row = wrapY startY row ∧
          spriteBit b col = true := by
      rintro ⟨c, hc, he, -⟩
      have := wrapX_inj startX (by omega) (by omega) (he.trans h.symm)
      omega
    constructor
    · intro px py hx hy
      rw [change_trans (hp px py hx hy) (t.pixel_drawPixel startX startY row b m (hf.wf hw) hx hy),
        hasStorage_congr hf.fbDetached]
      constructor
      · intro h
        by_cases hnew : hasStorage s px py ∧ wrapX startX m = px ∧ wrapY startY row = py ∧ spriteBit b m = true
        · exact ⟨hnew.1, m, by omega, hnew.2⟩
        · have hold := Classical.byContradiction fun hold => h ⟨fun k => absurd k hold, fun k => absurd k hnew⟩
          obtain ⟨hs, c, hc, hcol⟩ := hold
          exact ⟨hs, c, by omega, hcol⟩
      · rintro ⟨hs, c, hc, hx', hy', hb⟩ hiff
        subst hy'
        by_cases he : c = m
        · subst he
          exact hfresh hx' (hiff.2 ⟨hs, hx', rfl, hb⟩).2
        · exact hfresh (hiff.1 ⟨hs, c, by omega, hx', rfl, hb⟩).2.1
            ⟨c, by omega, hx', rfl, hb⟩
    · have hsame : t.pixel (wrapX startX m) (wrapY startY row) = s.pixel (wrapX startX m) (wrapY startY row) :=
        Classical.byContradiction fun h => hfresh rfl
          ((hp _ _ (wrapX_lt _ _) (wrapY_lt _ _)).1 h).2
      rw [t.getV_drawPixel, hv, hsame]
      constructor
      · rintro ((h | ⟨c, hc, h⟩) | h)
        · exact .inl h
        · exact .inr ⟨c, by omega, h⟩
        · exact .inr ⟨m, by omega, h⟩
      · rintro (h | ⟨c, hc, h⟩)
        · exact .inl (.inl h)
        · by_cases he : c = m
          · subst he; exact .inr h
          · exact .inl (.inr ⟨c, by omega, h⟩)

/-- One row changes exactly the pixels it lights that have storage. -/
theorem pixel_drawRow (startX startY : Byte) (row : Nat) (hw : s.memory.wf = true) {px py : Nat}
    (hx : px < 64) (hy : py < 32) :
    (s.drawRow startX startY row).pixel px py ≠ s.pixel px py ↔
      hasStorage s px py ∧ rowLights s startX startY row px py :=
  (s.drawColumns startX startY row _ 8 (Nat.le_refl 8) hw).1 px py hx hy

/-- One row reports a collision exactly when it lights a lit pixel. -/
theorem getV_drawRow (startX startY : Byte) (row : Nat) (hw : s.memory.wf = true) :
    (s.drawRow startX startY row).getV regF = 1 ↔ s.getV regF = 1 ∨
      ∃ px py, px < 64 ∧ py < 32 ∧ rowLights s startX startY row px py ∧ s.pixel px py = true := by
  refine (s.drawColumns startX startY row _ 8 (Nat.le_refl 8) hw).2.trans (or_congr_right ?_)
  constructor
  · rintro ⟨c, hc, hb, hp⟩
    exact ⟨_, _, wrapX_lt _ _, wrapY_lt _ _, ⟨c, hc, rfl, rfl, hb⟩, hp⟩
  · rintro ⟨_, _, _, _, ⟨c, hc, rfl, rfl, hb⟩, hp⟩
    exact ⟨c, hc, hb, hp⟩

/-! ### The whole sprite -/

/-- One column writes no cell but the one under its pixel. -/
theorem drawPixel_outside (startX startY : Byte) (row : Nat) (b : Byte) (col : Nat)
    (hw : s.memory.wf = true) (a : Nat)
    (h : cellOf a ≠ Config.fbBase + pixelByte (wrapX startX col) (wrapY startY row)) :
    (s.drawPixel startX startY row b col).readByte a = s.readByte a := by
  have hlt := pixelByte_lt (wrapX_lt startX col) (wrapY_lt startY row)
  have hc : cellOf (Config.fbBase + pixelByte (wrapX startX col) (wrapY startY row)) =
      Config.fbBase + pixelByte (wrapX startX col) (wrapY startY row) := by
    simp only [cellOf, Config.memSize, Config.fbBase, Config.fbSize] at *
    omega
  have hfb (t : State) (ht : t.memory = s.memory) (v : Byte) :
      (t.fbWrite (pixelByte (wrapX startX col) (wrapY startY row)) v).readByte a = s.readByte a := by
    cases hd : t.fbDetached
    · rw [fbWrite_attached t _ _ hd, readByte_writeByte _ _ _ _ (by rw [ht]; exact hw), hc, if_neg h]
      simp only [readByte, ht]
    · rw [fbWrite_detached t _ _ hd]
      simp only [readByte, ht]
  unfold drawPixel
  split
  · dsimp only
    split
    · exact hfb (s.setV regF 1) rfl _
    · exact hfb s rfl _
  · rfl

/-- A loop whose every pass keeps the draw frame and leaves a byte alone leaves it alone. -/
theorem readByte_foldl (a : Nat) (g : State → Nat → State) (ks : List Nat)
    (hf : ∀ s k, DrawFrame s (g s k))
    (hg : ∀ s, ∀ k ∈ ks, s.memory.wf = true → (g s k).readByte a = s.readByte a)
    (hw : s.memory.wf = true) : (ks.foldl g s).readByte a = s.readByte a := by
  induction ks generalizing s with
  | nil => rfl
  | cons k ks ih =>
    rw [List.foldl_cons, ih _ (fun t k h => hg t k (List.mem_cons_of_mem _ h)) ((hf s k).wf hw),
      hg s k List.mem_cons_self hw]

/-- A sprite writes no cell but those under its pixels (R78). -/
theorem drawSprite_outside (startX startY : Byte) (n : Nat) (hw : s.memory.wf = true) (a : Nat)
    (h : ∀ row col, row < n → col < 8 →
      cellOf a ≠ Config.fbBase + pixelByte (wrapX startX col) (wrapY startY row)) :
    (s.drawSprite startX startY n).readByte a = s.readByte a := by
  refine readByte_foldl s a _ _ (fun t k => t.drawRow_frame startX startY k) (fun t k hk ht => ?_) hw
  refine readByte_foldl t a _ _ (fun u c => u.drawPixel_frame startX startY k _ c) (fun u c hc hu => ?_) ht
  exact u.drawPixel_outside _ _ _ _ _ hu a (h k c (List.mem_range.1 hk) (List.mem_range.1 hc))

/-- A loop whose every pass sets VF to 1 or leaves it does so as a whole. -/
theorem getV_regF_foldl (g : State → Nat → State) (ks : List Nat)
    (hg : ∀ s k, (g s k).getV regF = 1 ∨ (g s k).getV regF = s.getV regF) :
    (ks.foldl g s).getV regF = 1 ∨ (ks.foldl g s).getV regF = s.getV regF := by
  induction ks generalizing s with
  | nil => exact .inr rfl
  | cons k ks ih =>
    rw [List.foldl_cons]
    rcases ih (g s k) with h | h
    · exact .inl h
    · rw [h]
      exact hg s k

/-- A sprite sets VF to 1 or leaves it (R201). -/
theorem drawSprite_regF (startX startY : Byte) (n : Nat) :
    (s.drawSprite startX startY n).getV regF = 1 ∨
      (s.drawSprite startX startY n).getV regF = s.getV regF := by
  refine getV_regF_foldl s _ _ fun t k => getV_regF_foldl t _ _ fun u c => ?_
  unfold drawPixel
  split
  · dsimp only
    split <;> simp
  · exact .inr rfl

end State

end Sys2Proof.Machine
end

