-- ==== Sys2Proof/Laws/Step.lean ====
section
/-! SUPPORT. What a step can do, said once: the refusal, the two checks, the dead-loop guard, or the dispatched instruction. -/

namespace Sys2Proof.Machine

theorem decodeFetched_eq_some {op : Word} {i : Instr} (h : decode op = .ok i) :
    decodeFetched op = some i := by
  simp only [decodeFetched, decodeBytes_wordBytes, h]

theorem decodeFetched_eq_none {op : Word} {r : Reject} (h : decode op = .error r) :
    decodeFetched op = none := by
  simp only [decodeFetched, decodeBytes_wordBytes, h]

theorem execute_of_decode {op : Word} {i : Instr} (h : decode op = .ok i) (s : State) :
    execute op s = exec i s := by
  simp only [execute, decodeFetched_eq_some h]

theorem execute_of_reject {op : Word} {r : Reject} (h : decode op = .error r) (s : State) :
    execute op s = s.raise .invalidOpcode := by
  simp only [execute, decodeFetched_eq_none h]

/-- A step that dispatches is the execution of the fetched word, with PC past it, and its retirement. -/
theorem step_of_dispatches {s : State} (h : s.Dispatches) :
    step s = retire s.fetchWord (execute s.fetchWord s.advance) := by
  simp [step, cycle, fetchExecute, h.running, h.loaded, h.inside, h.noSelfJump]

/-- The five ways a step goes (R120). -/
theorem step_cases (s : State) :
    (∃ k, s.fatalError = some k ∧ step s = .refused (.stepAfterFatalError k)) ∨
    (s.fatalError = none ∧ s.romLoaded = false ∧
      step s = .fault (.romNotLoaded (s.answer (.error .romNotLoaded)))) ∨
    (s.fatalError = none ∧ s.romLoaded = true ∧ s.inBounds = false ∧ step s = .next (s.answer .halt)) ∨
    (s.fatalError = none ∧ s.romLoaded = true ∧ s.inBounds = true ∧
      State.isSelfJump s.fetchWord s.pc = true ∧ step s = .next (s.advance.answer .halt)) ∨
    (s.Dispatches ∧ step s = retire s.fetchWord (execute s.fetchWord s.advance)) := by
  cases hf : s.fatalError with
  | some k => exact .inl ⟨k, rfl, by simp [step, cycle, hf]⟩
  | none =>
    cases hr : s.romLoaded with
    | false => exact .inr (.inl ⟨rfl, rfl, by simp [step, cycle, hf, hr, State.raise]⟩)
    | true =>
      cases hb : s.inBounds with
      | false => exact .inr (.inr (.inl ⟨rfl, rfl, rfl, by simp [step, cycle, hf, hr, hb]⟩))
      | true =>
        cases hj : State.isSelfJump s.fetchWord s.pc with
        | true =>
          exact .inr (.inr (.inr (.inl
            ⟨rfl, rfl, rfl, rfl, by simp [step, cycle, hf, hr, hb, fetchExecute, hj]⟩)))
        | false =>
          have hd : s.Dispatches := ⟨hf, hr, hb, hj⟩
          exact .inr (.inr (.inr (.inr ⟨hd, step_of_dispatches hd⟩)))

/-- What a dispatched word does: its instruction completes and ticks, its instruction ends in an error,
or it is invalid. -/
theorem retire_execute_cases (op : Word) (s : State) :
    (∃ i t, decode op = .ok i ∧ exec i s = .next t ∧
      retire op (execute op s) = .next (t.tick.answer (.executed op))) ∨
    (∃ i f, decode op = .ok i ∧ exec i s = .fault f ∧ retire op (execute op s) = .fault f) ∨
    (∃ r, decode op = .error r ∧
      retire op (execute op s) = .fault (.invalidOpcode (s.answer (.error .invalidOpcode)))) := by
  cases hd : decode op with
  | error r => exact .inr (.inr ⟨r, rfl, by rw [execute_of_reject hd]; rfl⟩)
  | ok i =>
    rw [execute_of_decode hd]
    cases he : exec i s with
    | next t => exact .inl ⟨i, t, rfl, he, rfl⟩
    | fault f => exact .inr (.inl ⟨i, f, rfl, he, rfl⟩)
    | refused r => exact absurd he (exec_ne_refused i s r)

/-- Where an error of a step comes from (R261, R262, R125): no ROM, an invalid word, or the instruction. -/
theorem step_fault {s : State} {f : Fault} (h : step s = .fault f) :
    (s.fatalError = none ∧ s.romLoaded = false ∧ s.raise .romNotLoaded = .fault f) ∨
    (s.Dispatches ∧ (((∃ r, decode s.fetchWord = .error r) ∧ s.advance.raise .invalidOpcode = .fault f) ∨
      ∃ i, decode s.fetchWord = .ok i ∧ exec i s.advance = .fault f)) := by
  rcases step_cases s with ⟨k, -, hs⟩ | ⟨hf, hr, hs⟩ | ⟨-, -, -, hs⟩ | ⟨-, -, -, -, hs⟩ | ⟨hd, hs⟩
  · rw [hs] at h; cases h
  · exact .inl ⟨hf, hr, hs.symm.trans h⟩
  · rw [hs] at h; cases h
  · rw [hs] at h; cases h
  · rw [hs] at h
    rcases retire_execute_cases s.fetchWord s.advance with
      ⟨i, t, -, -, hr⟩ | ⟨i, g, hi, he, hr⟩ | ⟨r, hi, hr⟩ <;> rw [hr] at h
    · cases h
    · cases h; exact .inr ⟨hd, .inr ⟨i, hi, he⟩⟩
    · exact .inr ⟨hd, .inl ⟨⟨r, hi⟩, h⟩⟩

/-- Every error of a step was raised with its kind (R269). -/
theorem step_fault_raised {s : State} {f : Fault} (h : step s = .fault f) :
    ∃ u : State, u.raise f.kind = .fault f := by
  have hk {u : State} {k : ErrorKind} (hu : u.raise k = .fault f) : ∃ u : State, u.raise f.kind = .fault f :=
    ⟨u, by rw [(u.raise_eq_fault hu).1]; exact hu⟩
  rcases step_fault h with ⟨-, -, hu⟩ | ⟨-, ⟨-, hu⟩ | ⟨i, -, he⟩⟩
  · exact hk hu
  · exact hk hu
  · rcases exec_fault he with ⟨_, -, -, hu⟩ | ⟨-, -, hu⟩ <;> exact hk hu

/-! ### Safe runs, one step at a time -/

theorem safeRun_zero (s t : State) : SafeRun 0 s t ↔ s = t := by
  unfold SafeRun
  exact ⟨fun h => by cases h; rfl, fun h => by rw [h]; rfl⟩

/-- A run of one step more that ends in a state steps first and then runs on. -/
theorem run_succ_eq_next (M : Host.Core) (n : Nat) (s t : M.State) :
    M.run (n + 1) s = .next t ↔ ∃ u, M.step s = .next u ∧ M.run n u = .next t := by
  show (match M.step s with
    | .next u => M.run n u
    | .fault f => .fault f
    | .refused r => .refused r) = .next t ↔ _
  cases M.step s <;> simp

theorem safeRun_succ (n : Nat) (s t : State) :
    SafeRun (n + 1) s t ↔ ∃ u, step s = .next u ∧ SafeRun n u t :=
  run_succ_eq_next Sys2Proof.core n s t

end Sys2Proof.Machine
end

