-- ==== Sys2Proof/Tests/Slice0.lean ====
section
/-! SUPPORT. Tests of one step each, with expected results from spec/95_test_vectors.md (the vector is named), decodings of words written out from spec/30_encoding.md, and for every obligation with hypotheses a state that meets them. -/

namespace Sys2Proof.Tests

open Sys2Proof.Machine

/-! ### Helpers -/

/-- A machine with one word loaded at 0x200, PC there, everything else as after power-on. -/
def loaded (w : Nat) : State := State.reset.withFetchWord 16 w

/-- The same with some V registers set. -/
def loadedV (w : Nat) (vs : List (Reg × Byte)) : State :=
  vs.foldl (fun s p => s.setV p.1 p.2) (loaded w)

/-- One field of the state a step leaves. -/
def after {α : Type} (s : State) (f : State → α) : Option α := (settled (step s)).map f

/-- The error a step ends in. -/
def errorOf : Host.Outcome State Fault Refusal → Option ErrorKind
  | .fault (.romNotLoaded _) => some .romNotLoaded
  | .fault (.invalidOpcode _) => some .invalidOpcode
  | .fault (.stackOverflow _) => some .stackOverflow
  | .fault (.stackUnderflow _) => some .stackUnderflow
  | .next _ | .refused _ => none

/-! ### Well-formedness -/

theorem test_wf_refuses_a_row_count_of_sixteen : (Instr.drw 0 0 16).wf = false := by decide

theorem test_wf_accepts_a_row_count_of_fifteen : (Instr.drw 15 15 15).wf = true := by decide

/-! ### Decoding: words written out from R92 and R95 -/

theorem test_decode_family_0 :
    decode 0b0000000000000000#16 = .ok .nop ∧ decode 0b0000000011100000#16 = .ok .cls ∧
    decode 0b0000000011101110#16 = .ok .ret := by decide

theorem test_decode_families_1_2_A_B :
    decode 0b0001101010111100#16 = .ok (.jp 0xABC) ∧ decode 0b0010101010111100#16 = .ok (.call 0xABC) ∧
    decode 0b1010001011110000#16 = .ok (.ldI 0x2F0) ∧
    decode 0b1011111111111111#16 = .ok (.jpV0 0xFFF) := by decide

theorem test_decode_families_3_4_6_7_C :
    decode 0b0011000101000010#16 = .ok (.seImm 1 0x42) ∧
    decode 0b0100000101000010#16 = .ok (.sneImm 1 0x42) ∧
    decode 0b0110101000111100#16 = .ok (.ldImm 10 0x3C) ∧
    decode 0b0111001100000010#16 = .ok (.addImm 3 0x02) ∧
    decode 0b1100000100001111#16 = .ok (.rnd 1 0x0F) := by decide

theorem test_decode_families_5_9 :
    decode 0b0101000100100000#16 = .ok (.seReg 1 2) ∧ decode 0b1001000100100000#16 = .ok (.sneReg 1 2) ∧
    decode 0x5121#16 = .error (.invalidOpcode 0x5121) ∧
    decode 0x9121#16 = .error (.invalidOpcode 0x9121) := by decide

theorem test_decode_family_8 :
    decode 0b1000000100100000#16 = .ok (.ldReg 1 2) ∧ decode 0b1000000100100001#16 = .ok (.orReg 1 2) ∧
    decode 0b1000000100100010#16 = .ok (.andReg 1 2) ∧ decode 0b1000000100100011#16 = .ok (.xorReg 1 2) ∧
    decode 0b1000000100100100#16 = .ok (.addReg 1 2) ∧ decode 0b1000000100100101#16 = .ok (.subReg 1 2) ∧
    decode 0b1000000100100110#16 = .ok (.shrReg 1 2) ∧ decode 0b1000000100100111#16 = .ok (.subnReg 1 2) ∧
    decode 0b1000000100101110#16 = .ok (.shlReg 1 2) := by decide

theorem test_decode_families_D_E :
    decode 0b1101000000010101#16 = .ok (.drw 0 1 5) ∧ decode 0b1110001010011110#16 = .ok (.skp 2) ∧
    decode 0b1110001010100001#16 = .ok (.sknp 2) := by decide

theorem test_decode_family_F :
    decode 0b1111010100000111#16 = .ok (.ldVDt 5) ∧ decode 0b1111001100001010#16 = .ok (.ldVKey 3) ∧
    decode 0b1111010100010101#16 = .ok (.ldDtV 5) ∧ decode 0b1111010100011000#16 = .ok (.ldStV 5) ∧
    decode 0b1111001000011110#16 = .ok (.addI 2) ∧ decode 0b1111010000101001#16 = .ok (.ldFont 4) ∧
    decode 0b1111000000110011#16 = .ok (.ldBcd 0) := by decide

theorem test_decode_family_F_ranges :
    decode 0b1111000101010101#16 = .ok (.storeRegs 1) ∧ decode 0b1111001001100101#16 = .ok (.loadRegs 2) ∧
    decode 0b1111001001110101#16 = .ok (.saveFlags 2) ∧
    decode 0b1111111110000101#16 = .ok (.restoreFlags 15) := by decide

/-- The invalid words of vector 2.10. -/
theorem test_invalid_words :
    [0x0001, 0x00E1, 0x00FF, 0x00FD, 0x0100, 0x01E0, 0x0FEE, 0x5121, 0x512F, 0x8128, 0x812F, 0x9001, 0xE000,
      0xE19F, 0xE1A2, 0xF000, 0xF10B, 0xF130, 0xF156, 0xF1FF].all
        (fun w => (decodeTableWord 16 w).isNone) = true := by decide

/-! ### The step -/

/-- S1. -/
theorem test_step_without_rom :
    errorOf (step State.reset) = some .romNotLoaded ∧ after State.reset (·.pc) = some 0x200 := by decide

/-- S2. -/
theorem test_empty_rom_halts : after (State.reset.loadRom []) (·.reply) = some .halt := by decide

/-- E4: no second fetch, no tick. -/
theorem test_self_jump_halts :
    after (State.reset.loadRom [0x12, 0x00]) (fun t => (t.reply, t.pc, t.tickCounter)) =
      some (.halt, 0x202, 0) := by decide

/-- S7: `BNNN` to itself is not guarded. -/
theorem test_indirect_self_jump_runs :
    after (loaded 0xB200) (fun t => (t.reply, t.pc, t.tickCounter)) = some (.executed 0xB200, 0x200, 1) := by
  decide

/-- S14: fetch at 0xFFFE reads cells 0xFFE and 0xFFF, and PC wraps. -/
theorem test_fetch_wraps :
    after { State.reset with romLoaded := true, romSize := 0x10000, pc := 0xFFFE }
      (fun t => (t.reply, t.pc)) = some (.executed 0x0000, 0x0000) := by decide

/-- Vector 2.10: PC past the word, no tick. -/
theorem test_invalid_word_faults :
    errorOf (step (loaded 0x8128)) = some .invalidOpcode ∧
    after (loaded 0x8128) (fun t => (t.pc, t.tickCounter)) = some (0x202, 0) := by decide

/-- S8 and S9. -/
theorem test_tick_on_the_sixth_count :
    after { loaded 0x0000 with tickCounter := 5, dt := 1, st := 3 } (fun t => (t.dt, t.st, t.tickCounter)) =
      some (0, 2, 0) ∧
    after { loaded 0x0000 with tickCounter := 5 } (fun t => (t.dt, t.st, t.tickCounter)) =
      some (0, 0, 6) := by decide

/-! ### Control flow -/

/-- F1. -/
theorem test_nop : after (loaded 0x0000) (fun t => (t.pc, t.tickCounter, t.getV regF)) =
    some (0x202, 1, 0) := by decide

/-- F4, little: 34 12 in the slot is 0x1234. -/
theorem test_ret_little :
    after { (loaded 0x00EE).writeBytes 0xEA0 [0x34, 0x12] with sp := 1 } (fun t => (t.sp, t.pc)) =
      some (0, 0x1234) := by decide

/-- F2. -/
theorem test_ret_on_an_empty_stack :
    errorOf (step (loaded 0x00EE)) = some .stackUnderflow ∧
    after (loaded 0x00EE) (fun t => (t.pc, t.sp, t.tickCounter)) = some (0x202, 0, 0) := by decide

/-- F9. -/
theorem test_jp_to_an_odd_address : after (loaded 0x1201) (·.pc) = some 0x201 := by decide

/-- F5: slot 47 is the bytes 0xEFE and 0xEFF. -/
theorem test_call_into_the_last_slot :
    after { loaded 0x2ABC with sp := 47 } (fun t => (t.sp, t.pc, t.readByte 0xEFE, t.readByte 0xEFF)) =
      some (48, 0xABC, 0x02, 0x02) := by decide

/-- F6: nothing is written. -/
theorem test_call_on_a_full_stack :
    errorOf (step { loaded 0x2ABC with sp := 48 }) = some .stackOverflow ∧
    after { loaded 0x2ABC with sp := 48 } (fun t => (t.sp, t.pc, t.readByte 0xF00)) =
      some (48, 0x202, 0) := by decide

/-- F7: not reduced to 12 bits. -/
theorem test_jpV0_beyond_12_bits : after (loadedV 0xBFFF [(0, 0xFF)]) (·.pc) = some 0x10FE := by decide

/-! ### Skips and the keypad -/

/-- K1 and K2. -/
theorem test_seImm :
    after (loadedV 0x3142 [(1, 0x42)]) (·.pc) = some 0x204 ∧
    after (loadedV 0x3143 [(1, 0x42)]) (·.pc) = some 0x202 := by decide

/-- K3 and K4. -/
theorem test_sneImm :
    after (loadedV 0x4142 [(1, 0x42)]) (·.pc) = some 0x202 ∧
    after (loadedV 0x4143 [(1, 0x42)]) (·.pc) = some 0x204 := by decide

/-- K5 and K6. -/
theorem test_seReg :
    after (loadedV 0x5120 [(1, 7), (2, 7)]) (·.pc) = some 0x204 ∧
    after (loadedV 0x5120 [(1, 7), (2, 8)]) (·.pc) = some 0x202 := by decide

/-- K8 and K9. -/
theorem test_sneReg :
    after (loadedV 0x9120 [(1, 7), (2, 8)]) (·.pc) = some 0x204 ∧
    after (loaded 0x9110) (·.pc) = some 0x202 := by decide

/-- P2k and P5k: the key is the value modulo 16. -/
theorem test_skp :
    after (loadedV 0xE29E [(2, 5)]) (·.pc) = some 0x202 ∧
    after ((loadedV 0xE29E [(2, 0x15)]).setKey 5 true) (·.pc) = some 0x204 := by decide

/-- P3k and P4k. -/
theorem test_sknp :
    after (loadedV 0xE2A1 [(2, 5)]) (·.pc) = some 0x204 ∧
    after ((loadedV 0xE2A1 [(2, 5)]).setKey 5 true) (·.pc) = some 0x202 := by decide

/-- P7k: the value is 1, not the key. -/
theorem test_ldVKey_pressed :
    after ((loadedV 0xF30A [(3, 0x77)]).setKey 7 true) (fun t => (t.getV 3, t.pc)) = some (1, 0x202) := by
  decide

/-- P6k: the wait ticks. -/
theorem test_ldVKey_waits :
    after (loadedV 0xF30A [(3, 0x77)]) (fun t => (t.getV 3, t.pc, t.tickCounter)) =
      some (0x77, 0x200, 1) := by decide

/-! ### Immediate and random -/

/-- I2. -/
theorem test_ldImm_into_VF : after (loadedV 0x6F00 [(15, 7)]) (·.getV regF) = some 0 := by decide

/-- I3: no carry is reported. -/
theorem test_addImm_wraps :
    after (loadedV 0x7302 [(3, 0xFF)]) (fun t => (t.getV 3, t.getV regF)) = some (0x01, 0) := by decide

/-- I7: whatever the draw. -/
theorem test_rnd_masks_everything (s : State) :
    (settled (exec (.rnd 1 0x00) s)).map (·.getV 1) = some 0 := by
  simp [exec, execRnd, settled, State.getV, State.setV]

/-! ### Arithmetic and logic -/

/-- A1. -/
theorem test_ldReg :
    after (loadedV 0x8120 [(2, 0x3C), (15, 9)]) (fun t => (t.getV 1, t.getV regF)) = some (0x3C, 9) := by decide

/-- A2: VF is not cleared. -/
theorem test_orReg :
    after (loadedV 0x8121 [(1, 0xF0), (2, 0x0C), (15, 9)]) (fun t => (t.getV 1, t.getV regF)) =
      some (0xFC, 9) := by decide

/-- A3. -/
theorem test_andReg :
    after (loadedV 0x8122 [(1, 0xF0), (2, 0x3C), (15, 9)]) (fun t => (t.getV 1, t.getV regF)) =
      some (0x30, 9) := by decide

/-- A4. -/
theorem test_xorReg :
    after (loadedV 0x8123 [(1, 0xF0), (2, 0x3C), (15, 9)]) (fun t => (t.getV 1, t.getV regF)) =
      some (0xCC, 9) := by decide

/-- A6. -/
theorem test_addReg_carries :
    after (loadedV 0x8124 [(1, 0xFF), (2, 0x01)]) (fun t => (t.getV 1, t.getV regF)) = some (0x00, 1) := by decide

/-- A8: with X = F the carry remains. -/
theorem test_addReg_into_VF : after (loadedV 0x8F24 [(15, 0xFF), (2, 0x01)]) (·.getV regF) = some 1 := by decide

/-- A11. -/
theorem test_subReg_borrows :
    after (loadedV 0x8125 [(1, 3), (2, 5)]) (fun t => (t.getV 1, t.getV regF)) = some (0xFE, 0) := by decide

/-- A12: equality is no borrow. -/
theorem test_subReg_of_equals :
    after (loadedV 0x8125 [(1, 7), (2, 7)]) (fun t => (t.getV 1, t.getV regF)) = some (0, 1) := by decide

/-- A15. -/
theorem test_subnReg :
    after (loadedV 0x8127 [(1, 3), (2, 5)]) (fun t => (t.getV 1, t.getV regF)) = some (2, 1) := by decide

/-- A16. -/
theorem test_subnReg_borrows :
    after (loadedV 0x8127 [(1, 5), (2, 3)]) (fun t => (t.getV 1, t.getV regF)) = some (0xFE, 0) := by decide

/-- A18: the flag is of V1, the value of V2. -/
theorem test_shrReg :
    after (loadedV 0x8126 [(1, 0x03), (2, 0x08)]) (fun t => (t.getV 1, t.getV regF)) = some (0x04, 1) := by decide

/-- A22: with Y = F the flag just written is shifted. -/
theorem test_shrReg_of_VF :
    after (loadedV 0x81F6 [(1, 0x03), (15, 0xF0)]) (fun t => (t.getV 1, t.getV regF)) = some (0, 1) := by decide

/-- A24: bit 7 of V2 is lost. -/
theorem test_shlReg :
    after (loadedV 0x812E [(1, 0x7F), (2, 0xC0)]) (fun t => (t.getV 1, t.getV regF)) = some (0x80, 0) := by decide

/-- A27: with X = F the shifted value remains. -/
theorem test_shlReg_into_VF : after (loadedV 0x8F2E [(15, 0x80), (2, 0x41)]) (·.getV regF) = some 0x82 := by decide

/-! ### The address register and memory -/

/-- M1. -/
theorem test_ldI : after (loaded 0xA2F0) (·.i) = some 0x02F0 := by decide

/-- M3. -/
theorem test_addI_wraps : after { loadedV 0xF21E [(2, 0x02)] with i := 0xFFFF } (·.i) = some 0x0001 := by decide

/-- M5: the whole value, not its low nibble. -/
theorem test_ldFont : after (loadedV 0xF429 [(4, 0xFF)]) (·.i) = some 0x04FB := by decide

/-- M8: the digits of 255 wrap over the font. -/
theorem test_ldBcd_wraps :
    after { loadedV 0xF033 [(0, 255)] with i := 0x0FFF }
      (fun t => (t.readByte 0xFFF, t.readByte 0x000, t.readByte 0x001, t.i)) =
      some (2, 5, 5, 0x0FFF) := by decide

/-- M14. -/
theorem test_storeRegs_wraps :
    after { loadedV 0xF255 [(0, 0xAA), (1, 0xBB), (2, 0xCC)] with i := 0xFFFE }
      (fun t => (t.readByte 0xFFE, t.readByte 0xFFF, t.readByte 0x000, t.i)) =
      some (0xAA, 0xBB, 0xCC, 0x0001) := by decide

/-- M10: one byte only. -/
theorem test_storeRegs_of_V0 :
    after { loadedV 0xF055 [(0, 0x11), (1, 0x22)] with i := 0x300 }
      (fun t => (t.readByte 0x300, t.readByte 0x301, t.i)) = some (0x11, 0, 0x301) := by decide

/-- M12. -/
theorem test_loadRegs :
    after { (loadedV 0xF265 [(3, 0x77)]).writeBytes 0x300 [1, 2, 3] with i := 0x300 }
      (fun t => (t.getV 0, t.getV 1, t.getV 2, t.getV 3, t.i)) = some (1, 2, 3, 0x77, 0x303) := by decide

/-- M13: the font's first glyph. -/
theorem test_loadRegs_from_the_font :
    after (loaded 0xF465) (fun t => (List.finRange 5).map fun k => t.getV (k.castLE (by decide))) =
      some [0xF0, 0x90, 0x90, 0x90, 0xF0] := by decide

/-! ### The display -/

/-- G1d: VF is unchanged. -/
theorem test_cls :
    after (((loadedV 0x00E0 [(15, 1)]).fbWrite 0 0xFF).fbWrite 255 0x01)
      (fun t => (t.fbRead 0, t.fbRead 255, t.getV regF)) = some (0, 0, 1) := by decide +kernel

/-- G3d: the bottom row wraps to the top. -/
theorem test_drw_wraps_a_row :
    after { (loadedV 0xD012 [(1, 31)]).writeBytes 0x300 [0xAA, 0x55] with i := 0x300 }
      (fun t => (t.fbRead 248, t.fbRead 0, t.getV regF)) = some (0xAA, 0x55, 0) := by decide +kernel

/-- G10d: VX is read before VF is cleared. -/
theorem test_drw_reads_VF_first :
    after { (loadedV 0xDF11 [(15, 5)]).writeBytes 0x300 [0x80] with i := 0x300 }
      (fun t => (t.fbRead 0, t.getV regF)) = some (0x04, 0) := by decide +kernel

/-! ### Timers and flag registers -/

/-- S12: read before the tick. -/
theorem test_ldVDt :
    after { loaded 0xF007 with tickCounter := 5, dt := 4 } (fun t => (t.getV 0, t.dt, t.tickCounter)) =
      some (4, 3, 0) := by decide

/-- S11: set before the tick. -/
theorem test_ldDtV :
    after { loadedV 0xF015 [(0, 10)] with tickCounter := 5 } (fun t => (t.dt, t.tickCounter)) =
      some (9, 0) := by decide

/-- T3. -/
theorem test_ldStV : after (loadedV 0xF518 [(5, 0x10)]) (fun t => (t.st, t.dt)) = some (0x10, 0) := by decide

/-- T5. -/
theorem test_saveFlags :
    after { loadedV 0xF275 [(0, 0xA1), (1, 0xB2), (2, 0xC3)] with flag := Vector.replicate 16 0x11 }
      (fun t => (t.getFlag 0, t.getFlag 1, t.getFlag 2, t.getFlag 3)) =
      some (0xA1, 0xB2, 0xC3, 0x11) := by decide

/-- T7. -/
theorem test_restoreFlags :
    after ((loadedV 0xF085 [(1, 0x44)]).writeFlag 0 0x99) (fun t => (t.getV 0, t.getV 1)) =
      some (0x99, 0x44) := by decide

/-! ### The host -/

/-- E3: the byte after the ROM is unchanged. -/
theorem test_loadRom :
    (let s := State.reset.loadRom [0x12, 0x34, 0x56]
     ((List.range 4).map fun k => s.readByte (0x200 + k), s.romSize)) = ([0x12, 0x34, 0x56, 0], 3) := by decide

/-- H2 and H3: the first load runs no `Reset()`, the second does; the key stays pressed. -/
theorem test_second_load_resets :
    (let s := ((State.reset.setKey 3 true).writeFlag 0 0x77).loadRom [0x6A, 0x05]
     let t := s.loadRom [0x00, 0xE0]
     (s.getFlag 0, s.keyDown 3, t.getFlag 0, t.keyDown 3)) = (0x77, true, 0, true) := by decide +kernel

/-! ### Witnesses: states and operands that meet the hypotheses of the obligations -/

theorem witness_wellFormed : (Instr.drw 15 14 15).wf = true := by decide

theorem witness_decodedWord : decode 0xDFE1#16 = .ok (.drw 15 14 1) := by decide

/-- Of `DecodeAcceptsExactlyTheOpcodeMap`: a word and the row it selects. -/
theorem witness_selectedRow :
    decode 0xF185#16 = .ok (.restoreFlags 1) ∧
    (⟨"FX85", 0xF0FF#16, 0xF085#16⟩ : Row) ∈ opcodeRows ∧
    (⟨"FX85", 0xF0FF#16, 0xF085#16⟩ : Row).selects 0xF185#16 = true := by decide

/-- Of `StepRunsTheDecodedInstruction`, an instruction that completes. -/
theorem witness_dispatches_next :
    (loaded 0x00E0).Dispatches ∧
    decodeBytes [(loaded 0x00E0).readByte (byteAddr (loaded 0x00E0).pc 0),
      (loaded 0x00E0).readByte (byteAddr (loaded 0x00E0).pc 1)] = .ok (.cls, []) ∧
    ∃ t, exec .cls { loaded 0x00E0 with pc := (loaded 0x00E0).pc + 2 } = .next t :=
  ⟨⟨by decide, by decide, by decide, by decide⟩, by decide, _, rfl⟩

/-- Of `StepRunsTheDecodedInstruction`, an instruction that ends in an error. -/
theorem witness_dispatches_fault :
    (loaded 0x00EE).Dispatches ∧
    decodeBytes [(loaded 0x00EE).readByte (byteAddr (loaded 0x00EE).pc 0),
      (loaded 0x00EE).readByte (byteAddr (loaded 0x00EE).pc 1)] = .ok (.ret, []) ∧
    ∃ f, exec .ret { loaded 0x00EE with pc := (loaded 0x00EE).pc + 2 } = .fault f :=
  ⟨⟨by decide, by decide, by decide, by decide⟩, by decide, _, rfl⟩

/-- Of `StepReportsExactlyTheInvalidWords`, both sides of its equivalence. -/
theorem witness_invalidWord :
    (loaded 0x8128).Dispatches ∧
    (opcodeRows.all fun r => !r.selects (loaded 0x8128).fetchWord) = true ∧
    (loaded 0x8127).Dispatches ∧
    (opcodeRows.any fun r => r.selects (loaded 0x8127).fetchWord) = true :=
  ⟨⟨by decide, by decide, by decide, by decide⟩, by decide,
    ⟨by decide, by decide, by decide, by decide⟩, by decide⟩

theorem witness_noRom : State.reset.fatalError = none ∧ State.reset.romLoaded = false := by decide

/-- A loaded machine with PC at a given address; its program is two bytes long. -/
def atPc (a : Word) : State := { loaded 0x0000 with pc := a }

/-- Of `StepHaltsOutsideTheProgram` and `BoundsHaltRepeatsForEver`: the addresses on both sides of
both bounds. -/
theorem witness_bounds :
    (atPc 0x1FF).fatalError = none ∧ (atPc 0x1FF).romLoaded = true ∧
    ¬ (0x200 ≤ (atPc 0x1FF).pc.toNat ∧ (atPc 0x1FF).pc.toNat < 0x200 + (atPc 0x1FF).romSize) ∧
    ¬ (0x200 ≤ (atPc 0x202).pc.toNat ∧ (atPc 0x202).pc.toNat < 0x200 + (atPc 0x202).romSize) ∧
    (0x200 ≤ (atPc 0x200).pc.toNat ∧ (atPc 0x200).pc.toNat < 0x200 + (atPc 0x200).romSize) ∧
    (0x200 ≤ (atPc 0x201).pc.toNat ∧ (atPc 0x201).pc.toNat < 0x200 + (atPc 0x201).romSize) := by decide

theorem witness_selfJump :
    (loaded 0x1200).fatalError = none ∧ (loaded 0x1200).romLoaded = true ∧
    (loaded 0x1200).inBounds = true ∧ (loaded 0x1200).fetchWord = 0x1#4 ++ 0x200#12 ∧
    (0x200#12).toNat = (loaded 0x1200).pc.toNat := by decide

/-- Of `FatalErrorEndsTheRunUntilARomLoad`, and the left sides of `StepErrorsAreExactlyTheListed`: each error,
and the empty stack with either parameter. -/
theorem witness_errors :
    (∃ f, step State.reset = .fault f ∧ f.kind = .romNotLoaded) ∧
    (∃ f, step (loaded 0x5121) = .fault f ∧ f.kind = .invalidOpcode) ∧
    (∃ f, step { loaded 0x2ABC with sp := 48 } = .fault f ∧ f.kind = .stackOverflow) ∧
    (∃ f, step (loaded 0x00EE) = .fault f ∧ f.kind = .stackUnderflow) ∧
    (∃ f, step { loaded 0x00EE with params := ⟨.little, true⟩ } = .fault f ∧ f.kind = .stackOverflow) :=
  ⟨⟨_, rfl, rfl⟩, ⟨_, rfl, rfl⟩, ⟨_, rfl, rfl⟩, ⟨_, rfl, rfl⟩, ⟨_, rfl, rfl⟩⟩

/-- The right sides of `StepErrorsAreExactlyTheListed`, at the least full stack and the empty one. -/
theorem witness_errorConditions :
    (loaded 0x5121).Dispatches ∧ (opcodeRows.all fun r => !r.selects (loaded 0x5121).fetchWord) = true ∧
    ({ loaded 0x2ABC with sp := 48 }).Dispatches ∧
    decode ({ loaded 0x2ABC with sp := 48 }).fetchWord = .ok (.call 0xABC) ∧
    (loaded 0x00EE).Dispatches ∧ decode (loaded 0x00EE).fetchWord = .ok .ret ∧ (loaded 0x00EE).sp = 0 :=
  ⟨⟨by decide, by decide, by decide, by decide⟩, by decide,
    ⟨by decide, by decide, by decide, by decide⟩, by decide,
    ⟨by decide, by decide, by decide, by decide⟩, by decide, by decide⟩

/-- Of `StepRefusesOnlyAfterAFatalError`. -/
theorem witness_refusal :
    step { loaded 0x0000 with reply := .error .invalidOpcode } =
      .refused (.stepAfterFatalError .invalidOpcode) := rfl

/-- Of `PlacedWordIsTheNextInstruction`: the greatest word, and no self-jump. -/
theorem witness_placedWord :
    State.reset.memory.wf = true ∧ 0xFFFF < 65536 ∧
    State.isSelfJump (BitVec.ofNat 16 0xFFFF) (State.reset.withFetchWord 16 0xFFFF).pc = false := by decide

/-- Of `TickDecrementsOnEverySixthCount`: each clause. -/
theorem witness_tick :
    (({ State.reset with tickCounter := 4 }).tickCounter + 1) % 6 ≠ 0 ∧
    (({ State.reset with tickCounter := 5 }).tickCounter + 1) % 6 = 0 ∧
    0 < ({ State.reset with tickCounter := 5, st := 1 }).st.toNat ∧
    (({ State.reset with tickCounter := 5 }).dt.toNat = 0 ∧
      ({ State.reset with tickCounter := 5 }).st.toNat = 0) := by decide

theorem witness_nop : (loaded 0x0000).Dispatches ∧ (loaded 0x0000).fetchWord = 0x0000#16 :=
  ⟨⟨by decide, by decide, by decide, by decide⟩, by decide⟩

/-- Of `CallPushesTheReturnAddress` and `ReturnUndoesCall`: the last free slot and the full stack, in both
byte orders. -/
theorem witness_call :
    (loaded 0x2ABC).memory.wf = true ∧ 48 ≤ ({ loaded 0x2ABC with sp := 48 }).sp ∧
    ({ loaded 0x2ABC with sp := 47 }).sp < 48 ∧ (loaded 0x2ABC).params.stackByteOrder = .little ∧
    ({ loaded 0x2ABC with params := ⟨.big, false⟩ }).params.stackByteOrder = .big := by decide

theorem witness_return :
    (loaded 0x00EE).sp = 0 ∧ (loaded 0x00EE).params.stackErrorConflated = false ∧
    ({ loaded 0x00EE with params := ⟨.little, true⟩ }).params.stackErrorConflated = true ∧
    0 < ({ loaded 0x00EE with sp := 1 }).sp := by decide

/-- Of `RegisterSkipsCompare`: the least and the greatest low nibble that is not 0. -/
theorem witness_lowNibble : (1#4) ≠ 0 ∧ (15#4) ≠ 0 := by decide

/-- Of `KeypadSkipsTestTheKey`: key 15, named by 0x0F and by 0xFF. -/
theorem witness_key :
    (15 : Fin 16).val = ((loadedV 0xE29E [(2, 0x0F)]).getV 2).toNat % 16 ∧
    (15 : Fin 16).val = ((loadedV 0xE29E [(2, 0xFF)]).getV 2).toNat % 16 := by decide

/-- Of `KeyWaitStoresOneOrRewinds`: the last key pressed, and none. -/
theorem witness_anyKey :
    (∃ k : Fin 16, (State.reset.setKey 15 true).keyState[k.val] = true) ∧
    (∀ k : Fin 16, State.reset.keyState[k.val] = false) := by decide

theorem witness_waitingStep :
    (loaded 0xF30A).Dispatches ∧ (loaded 0xF30A).fetchWord = 0xF#4 ++ regBits 3 ++ 0x0A#8 ∧
    (∀ k : Fin 16, (loaded 0xF30A).keyState[k.val] = false) :=
  ⟨⟨by decide, by decide, by decide, by decide⟩, by decide, by decide⟩

/-- Of the flag statements: a destination that is VF and one that is not, a source that is VF. -/
theorem witness_destinations : (14 : Reg) ≠ regF ∧ (15 : Reg) = regF := by decide

/-- Of the stores and loads: canonical memory, and the first and last register of a range. -/
theorem witness_ranges :
    (loaded 0xFF55).memory.wf = true ∧ (15 : Reg) ≤ 15 ∧ (0 : Reg) ≤ 0 ∧ (14 : Reg) < 15 := by decide

theorem witness_storedBytes :
    (loaded 0xFF55).memory.wf = true ∧ (∃ t, exec (.storeRegs 15) (loaded 0xFF55) = .next t) ∧
    (15 : Reg).val = (14 : Reg).val + 1 ∧ (15 : Reg) ≤ 15 :=
  ⟨by decide, ⟨_, rfl⟩, by decide, by decide⟩

/-- A machine with a lit pixel, its framebuffer attached, and the sprite byte 0xFF at I. -/
def drawing : State := { (loaded 0xD011).writeBytes 0x300 [0xFF] with i := 0x300 }

/-- The same with the framebuffer detached. -/
def drawingDetached : State := { drawing with fbDetached := true }

/-- Of `ClearScreenDarkensEveryPixel` and the draw statements: both framebuffer modes, and the last cells. -/
theorem witness_display :
    drawing.memory.wf = true ∧ drawing.fbDetached = false ∧ drawingDetached.memory.wf = true ∧
    drawingDetached.fbDetached = true ∧ (15 : Nat) < 16 ∧ (254 : Nat) < 255 := by decide

/-- Of the draw statements: the sprite's bytes outside the picture, in both modes. -/
theorem witness_spriteApart : spriteApart drawing 15 ∧ spriteApart drawingDetached 15 :=
  ⟨.inr (by decide), .inl rfl⟩

/-- Of `DrawChangesOnlyTheFlagAndTheSpritesPlace`: a cell not under the sprite, and the empty sprite. -/
theorem witness_notUnderSprite : ¬ underSprite drawing 0 1 0 0xF00 :=
  fun ⟨_, _, h, _⟩ => absurd h (Nat.not_lt_zero _)

/-- Of the draw statements: the last pixel has storage only when attached. -/
theorem witness_storage : hasStorage drawing 63 31 ∧ ¬ hasStorage drawingDetached 63 31 :=
  ⟨fun h => absurd h (by decide), fun h => absurd (h rfl) (by decide)⟩

/-- Of the draw statements: a pixel the sprite and its one row light. -/
theorem witness_spriteLights :
    spriteLights drawing 0 1 1 7 0 ∧ rowLights drawing 0 0 0 7 0 :=
  ⟨⟨0, 7, by decide, by decide, by decide, by decide, by decide⟩,
    ⟨7, by decide, by decide, by decide, by decide⟩⟩

/-- Of the draw statements: a pixel that neither lights. -/
theorem witness_spriteDark :
    ¬ spriteLights drawing 0 1 1 8 0 ∧ ¬ rowLights drawing 0 0 0 8 0 := by
  constructor
  · rintro ⟨row, col, hr, hc, hx, -⟩
    revert col
    decide
  · rintro ⟨col, hc, hx, -⟩
    revert col
    decide

/-- Of `DrawReportsCollision`: a lit pixel under the sprite, and none lit. -/
theorem witness_collision :
    (∃ px py, px < 64 ∧ py < 32 ∧ spriteLights (drawing.fbWrite 0 0x01) 0 1 1 px py ∧
      (drawing.fbWrite 0 0x01).pixel px py = true) ∧
    (∀ px, px < 64 → ∀ py, py < 32 → drawing.pixel px py = false) :=
  ⟨⟨7, 0, by decide, by decide, ⟨0, 7, by decide, by decide, by decide, by decide, by decide⟩, by decide⟩,
    by decide +kernel⟩

/-- Of `DrawingTwiceRestoresThePicture`: coordinates in registers other than VF. -/
theorem witness_drawnTwice :
    ∃ t, exec (.drw 0 1 1) drawing = .next t ∧ t.getV 0 = drawing.getV 0 ∧ t.getV 1 = drawing.getV 1 :=
  ⟨_, rfl, by decide +kernel, by decide +kernel⟩

theorem witness_timerSteps :
    (loaded 0xF507).Dispatches ∧ (loaded 0xF507).fetchWord = 0xF#4 ++ regBits 5 ++ 0x07#8 ∧
    (loaded 0xF515).Dispatches ∧ (loaded 0xF515).fetchWord = 0xF#4 ++ regBits 5 ++ 0x15#8 ∧
    (loaded 0xF518).Dispatches ∧ (loaded 0xF518).fetchWord = 0xF#4 ++ regBits 5 ++ 0x18#8 :=
  ⟨⟨by decide, by decide, by decide, by decide⟩, by decide,
    ⟨by decide, by decide, by decide, by decide⟩, by decide,
    ⟨by decide, by decide, by decide, by decide⟩, by decide⟩

/-- Of `RegistersChangeOnlyByTheirWriters` and `MemoryChangesOnlyByTheListedWriters`: an instruction that
completes and writes nothing of what the clauses name. -/
theorem witness_frames :
    (∃ t, exec .nop State.reset = .next t) ∧ regF ∉ Instr.nop.writesV ∧ Instr.nop.writesI = false ∧
    Instr.nop.writesSp = false ∧ Instr.nop.writesPc = false ∧ (∀ x, Instr.nop ≠ .ldDtV x) ∧
    (∀ x, Instr.nop ≠ .ldStV x) ∧ (∀ x, Instr.nop ≠ .saveFlags x) ∧ Instr.nop.storesMemory = false :=
  ⟨⟨_, rfl⟩, by decide, rfl, rfl, rfl, fun _ => nofun, fun _ => nofun, fun _ => nofun, rfl⟩

/-- Of `NoStepChangesWhatOnlyTheHostMay`: a step that completes, and one that raises RomNotLoaded. -/
theorem witness_steps :
    (∃ t, step (loaded 0x0000) = .next t) ∧
    (∃ t, ∃ f, step State.reset = .fault f ∧ f.certain = some t) :=
  ⟨⟨_, rfl⟩, ⟨_, _, rfl, rfl⟩⟩

/-- Of `StepKeepsTheInvariant` and `HostOperationsKeepTheInvariant`: good states, with a program and
without one, whose steps complete and raise RomNotLoaded. -/
theorem witness_invariant :
    (loaded 0x6012).Inv ∧ (∃ t, step (loaded 0x6012) = .next t) ∧
    State.reset.Inv ∧ (∃ f t, step State.reset = .fault f ∧ f.certain = some t) :=
  ⟨⟨by decide, by decide, fun _ => rfl, fun h => absurd h (by decide)⟩, ⟨_, rfl⟩,
    ⟨by decide, by decide, fun _ => rfl, fun _ => ⟨rfl, rfl⟩⟩, ⟨_, _, rfl, rfl⟩⟩

/-- Of `EveryReachedStateIsGood`: RomNotLoaded, a load, a key and a step. -/
theorem witness_reached :
    (runTransactions [.coreStep, .host (.loadRom [0x60, 0x12]), .host (.setKey 3 true), .coreStep]
      (State.powerOn Params.default)).isSome = true ∧
    meetsNoFatalError [.coreStep, .host (.loadRom [0x60, 0x12]), .host (.setKey 3 true), .coreStep]
      (State.powerOn Params.default) = true := by decide

/-- The premise of `EveryReachedStateIsGood` fails of a sequence that meets an invalid word. -/
theorem test_fatal_error_is_met :
    meetsNoFatalError [.host (.loadRom [0x51, 0x21]), .coreStep] (State.powerOn Params.default) = false := by
  decide

/-- Of `CanonicalMemoriesThatReadAlikeAreEqual`: a memory with a cell of its own. -/
theorem witness_canonical :
    Memory.wf [(0x300, 1)] = true ∧ ∀ a, Memory.read [(0x300, 1)] a = Memory.read [(0x300, 1)] a :=
  ⟨by decide, fun _ => rfl⟩

/-- Of `PowerOnValues`: the ends of the range of addresses. -/
theorem witness_aboveTheFont : 0x050 ≤ 0x050 ∧ 0x050 < 4096 ∧ 0x050 ≤ 4095 ∧ 4095 < 4096 := by decide

/-- Of `ResetZeroesExactlyItsList`: the ends of the stack and of the picture, in both framebuffer modes. -/
theorem witness_reset :
    drawing.memory.wf = true ∧ 255 < 256 ∧ (0xEA0 ≤ 0xEFF ∧ 0xEFF < 0xF00) ∧
    drawing.fbDetached = false ∧ drawingDetached.fbDetached = true := by decide

/-- Of `RomLoadCopiesTheProgram` and `OversizedRomDetachesTheFramebuffer`: the longest ROM that is copied
and the shortest that is not, before and after another load. -/
theorem witness_romLengths :
    State.reset.memory.wf = true ∧ 0x200 + (zeroBytes 3327).length < 0xF00 ∧
    0xF00 ≤ 0x200 + (zeroBytes 3328).length ∧ State.reset.romLoaded = false ∧
    (loaded 0x0000).romLoaded = true ∧ drawingDetached.fbDetached = true ∧ (3326 < 3327) := by
  simp only [zeroBytes, List.length_replicate]
  decide

/-- Of `HostReadsTheDrawnPicture`: the last byte of the picture in both modes. -/
theorem witness_lastByte :
    255 < drawing.readFramebuffer.length ∧ 254 < drawingDetached.readFramebuffer.length := by
  decide +kernel

end Sys2Proof.Tests
end

section
/-! PROOF. Good states are kept: by every instruction that completes, by every step up to a fatal error,
by every host operation, and so along every sequence of them from power-on. -/

namespace Sys2Proof.Machine

/-! ### Good states and instructions -/

/-- A return that completes pops the top slot of a stack that is not empty (R141). -/
theorem execRet_next {s t : State} (h : execRet s = .next t) :
    s.sp ≠ 0 ∧ t = { s with sp := s.sp - 1, pc := s.stackRead (s.sp - 1) } := by
  unfold execRet at h
  split at h
  · obtain ⟨f, hf, -⟩ := s.raise_fault s.underflowKind; rw [hf] at h; cases h
  · cases h; exact ⟨‹_›, rfl⟩

/-- A call that completes pushes onto a stack that is not full (R143). -/
theorem execCall_next {nnn : Addr} {s t : State} (h : execCall nnn s = .next t) :
    s.sp < Config.stackSlots ∧ t = { s.stackWrite s.sp s.pc with sp := s.sp + 1, pc := zext16 nnn } := by
  unfold execCall at h
  split at h
  · cases h
  · cases h; exact ⟨Nat.lt_of_not_le ‹_›, rfl⟩

/-- SP moves by a return and a call alone, and each tests its own bound first (R141, R143). -/
theorem exec_sp_cases {i : Instr} {s t : State} (h : exec i s = .next t) :
    t.sp = s.sp ∨ (i = .ret ∧ s.sp ≠ 0 ∧ t.sp = s.sp - 1) ∨
    ∃ nnn, i = .call nnn ∧ s.sp < Config.stackSlots ∧ t.sp = s.sp + 1 := by
  cases i <;> simp only [exec] at h
  case ret => obtain ⟨hsp, rfl⟩ := execRet_next h; exact .inr (.inl ⟨rfl, hsp, rfl⟩)
  case call nnn => obtain ⟨hsp, rfl⟩ := execCall_next h; exact .inr (.inr ⟨nnn, rfl, hsp, rfl⟩)
  case ldVKey x => unfold execLdVKey at h; split at h <;> cases h <;> exact .inl rfl
  case drw x y n => cases h; rw [((s.setV regF 0).drawSprite_frame _ _ n).eq]; exact .inl rfl
  case loadRegs x => cases h; rw [State.setI, s.loadFrom_eq]; exact .inl rfl
  case saveFlags x => cases h; rw [s.saveFrom_eq]; exact .inl rfl
  case restoreFlags x => cases h; rw [s.restoreFrom_eq]; exact .inl rfl
  all_goals cases h; left; simp

/-- With the framebuffer attached, no instruction reaches the detached buffer (R68). -/
theorem exec_dfb_of_attached {i : Instr} {s t : State} (h : exec i s = .next t)
    (ha : s.fbDetached = false) : t.dfb = s.dfb := by
  cases i <;> simp only [exec] at h
  case ret => obtain ⟨-, rfl⟩ := execRet_next h; rfl
  case call nnn => obtain ⟨-, rfl⟩ := execCall_next h; exact s.stackWrite_dfb _ _
  case ldVKey x => unfold execLdVKey at h; split at h <;> cases h <;> rfl
  case cls => cases h; exact s.fbClear_frame.attached ha
  case drw x y n => cases h; exact ((s.setV regF 0).drawSprite_frame _ _ n).attached ha
  case loadRegs x => cases h; rw [State.setI, s.loadFrom_eq]
  case saveFlags x => cases h; rw [s.saveFrom_eq]
  case restoreFlags x => cases h; rw [s.restoreFrom_eq]
  all_goals cases h; simp

/-- An instruction that completes keeps a good state good. -/
theorem State.Inv.exec_next {i : Instr} {s t : State} (hs : s.Inv) (h : exec i s = .next t) : t.Inv := by
  obtain ⟨hsp, hwf, hdfb, hrom⟩ := hs
  have hfb : t.fbDetached = s.fbDetached := by rw [exec_next_eq h]
  have hloaded : t.romLoaded = s.romLoaded := by rw [exec_next_eq h]
  have hsize : t.romSize = s.romSize := by rw [exec_next_eq h]
  refine ⟨?_, exec_memory_wf h hwf, fun ha => ?_, by rwa [hfb, hloaded, hsize]⟩
  · rcases exec_sp_cases h with h₀ | ⟨-, -, h₀⟩ | ⟨-, -, hlt, h₀⟩ <;> omega
  · rw [hfb] at ha
    rw [exec_dfb_of_attached h ha, hdfb ha]

/-! ### Good states and steps -/

/-- Fetch's advance of PC keeps a good state good. -/
theorem State.Inv.advance {s : State} (hs : s.Inv) : s.advance.Inv :=
  ⟨hs.sp_le, hs.memory_wf, hs.dfb_blank, hs.unloaded⟩

/-- Recording an answer keeps a good state good. -/
theorem State.Inv.answer {s : State} (hs : s.Inv) (r : Reply) : (s.answer r).Inv :=
  ⟨hs.sp_le, hs.memory_wf, hs.dfb_blank, hs.unloaded⟩

/-- A tick keeps a good state good. -/
theorem State.Inv.tick {s : State} (hs : s.Inv) : s.tick.Inv := by
  rw [s.tick_eq]
  exact ⟨hs.sp_le, hs.memory_wf, hs.dfb_blank, hs.unloaded⟩

/-- A step that completes keeps a good state good (R36). -/
theorem State.Inv.step_next {s t : State} (hs : s.Inv) (h : step s = .next t) : t.Inv := by
  rcases step_cases s with ⟨k, -, he⟩ | ⟨-, -, he⟩ | ⟨-, -, -, he⟩ | ⟨-, -, -, -, he⟩ | ⟨-, he⟩ <;>
    rw [he] at h
  · cases h
  · cases h
  · cases h; exact hs.answer _
  · cases h; exact hs.advance.answer _
  · rcases retire_execute_cases s.fetchWord s.advance with
      ⟨i, u, -, hu, hr⟩ | ⟨i, f, -, -, hr⟩ | ⟨r, -, hr⟩ <;> rw [hr] at h
    · cases h; exact (hs.advance.exec_next hu).tick.answer _
    · cases h
    · cases h

/-- An empty stack is reported as one of the two stack errors (R264). -/
theorem State.underflowKind_ne_romNotLoaded (s : State) : s.underflowKind ≠ .romNotLoaded := by
  unfold State.underflowKind
  split <;> decide

/-- RomNotLoaded comes of the step's first check alone and leaves the state as it was (R121). -/
theorem step_fault_romNotLoaded {s : State} {f : Fault} (h : step s = .fault f)
    (hk : f.kind = .romNotLoaded) : f = .romNotLoaded (s.answer (.error .romNotLoaded)) := by
  rcases step_fault h with ⟨-, -, hu⟩ | ⟨-, ⟨-, hu⟩ | ⟨i, -, he⟩⟩
  · cases hu; rfl
  · cases hu; cases hk
  · rcases exec_fault he with ⟨-, -, -, hu⟩ | ⟨-, -, hu⟩
    · cases hu; cases hk
    · exact absurd ((State.raise_eq_fault _ hu).1.symm.trans hk) (State.underflowKind_ne_romNotLoaded _)

/-- The one state of an error that is certain is that of RomNotLoaded (R269). -/
theorem Fault.eq_romNotLoaded_of_certain {f : Fault} {t : State} (h : f.certain = some t) :
    f = .romNotLoaded t := by
  cases f with
  | romNotLoaded u => cases h; rfl
  | invalidOpcode u => cases h
  | stackOverflow u => cases h
  | stackUnderflow u => cases h

/-- RomNotLoaded keeps a good state good (R121). -/
theorem State.Inv.step_certain {s t : State} {f : Fault} (hs : s.Inv) (h : step s = .fault f)
    (hc : f.certain = some t) : t.Inv := by
  cases Fault.eq_romNotLoaded_of_certain hc
  cases step_fault_romNotLoaded h rfl
  exact hs.answer _

/-- The state an error leaves shows no fatal error only if the error was RomNotLoaded (R270). -/
theorem step_fault_certain_of_not_fatal {s : State} {f : Fault} (h : step s = .fault f)
    (hf : f.after.fatalError = none) : f.certain = some f.after := by
  obtain ⟨u, hu⟩ := step_fault_raised h
  have hk : f.kind = .romNotLoaded := by
    rw [(u.raise_eq_fault hu).2, u.fatalError_answer_error] at hf
    by_contra hne
    simp [hne] at hf
  rw [step_fault_romNotLoaded h hk]
  rfl

/-! ### Good states and the host -/

/-- A machine just powered on is good, whatever its parameters (R37). -/
theorem State.inv_powerOn (p : Params) : (State.powerOn p).Inv :=
  ⟨Nat.zero_le _, Memory.wf_nil, fun _ => rfl, fun _ => ⟨rfl, rfl⟩⟩

/-- `Reset()`, or its omission on the first load, keeps a good state good. -/
theorem State.Inv.resetUnlessFirst {s : State} (hs : s.Inv) : s.resetUnlessFirst.Inv := by
  unfold State.resetUnlessFirst
  split
  · refine ⟨by simp, s.resetMachine_wf hs.memory_wf, fun ha => ?_, by simpa using hs.unloaded⟩
    rw [State.resetMachine_fbDetached] at ha
    simp [State.resetMachine_dfb, ha, hs.dfb_blank]
  · exact hs

/-- `LoadROM` keeps a good state good, copied or oversized (R292, R293). -/
theorem State.Inv.loadRom {s : State} (hs : s.Inv) (bs : List Byte) : (s.loadRom bs).Inv := by
  have hr := hs.resetUnlessFirst
  have hwf := s.loadRom_wf bs hs.memory_wf
  cases ho : State.oversized bs.length with
  | false =>
    rw [State.loadRom_copied s bs ho] at hwf ⊢
    exact ⟨hr.sp_le, hwf, hr.dfb_blank, nofun⟩
  | true =>
    rw [State.loadRom_oversized s bs ho] at hwf ⊢
    exact ⟨hr.sp_le, hwf, fun _ => rfl, nofun⟩

/-- Every host operation keeps a good state good (R230). -/
theorem State.Inv.hostOp {s : State} (hs : s.Inv) (op : HostOp) : (op.apply s).Inv := by
  cases op with
  | powerOn =>
    obtain ⟨hsp, hwf, hdfb, hrom⟩ := State.inv_powerOn s.params
    exact ⟨hsp, hwf, hdfb, hrom⟩
  | loadRom bs => exact hs.loadRom bs
  | resetPc => exact ⟨hs.sp_le, hs.memory_wf, hs.dfb_blank, hs.unloaded⟩
  | setKey k p => exact ⟨hs.sp_le, hs.memory_wf, hs.dfb_blank, hs.unloaded⟩
  | writeFlag k b => exact ⟨hs.sp_le, hs.memory_wf, hs.dfb_blank, hs.unloaded⟩

/-! ### Good states along a sequence -/

/-- A transaction that leaves no fatal error keeps a good state good. -/
theorem State.Inv.transaction {s t : State} (hs : s.Inv) (tr : Transaction) (h : tr.run s = some t)
    (hf : t.fatalError = none) : t.Inv := by
  cases tr with
  | host op => cases h; exact hs.hostOp op
  | coreStep =>
    simp only [Transaction.run] at h
    cases hstep : step s with
    | next u => rw [hstep] at h; cases h; exact hs.step_next hstep
    | fault f =>
      rw [hstep] at h
      cases h
      exact hs.step_certain hstep (step_fault_certain_of_not_fatal hstep hf)
    | refused r => rw [hstep] at h; cases h

/-- A sequence that meets no fatal error does not start in one. -/
theorem fatalError_eq_none_of_meetsNoFatalError {ts : List Transaction} {s : State}
    (h : meetsNoFatalError ts s = true) : s.fatalError = none := by
  cases ts with
  | nil => exact Option.isNone_iff_eq_none.mp h
  | cons tr ts => exact Option.isNone_iff_eq_none.mp (Bool.and_eq_true_iff.mp h).1

/-- A sequence that meets no fatal error keeps a good state good, wherever it starts. -/
theorem State.Inv.of_runTransactions {ts : List Transaction} {s t : State} (hs : s.Inv)
    (hrun : runTransactions ts s = some t) (hmeets : meetsNoFatalError ts s = true) : t.Inv := by
  induction ts generalizing s with
  | nil => cases hrun; exact hs
  | cons tr ts ih =>
    simp only [runTransactions] at hrun
    simp only [meetsNoFatalError, Bool.and_eq_true] at hmeets
    cases htr : tr.run s with
    | none => simp [htr] at hrun
    | some u =>
      simp only [htr] at hrun hmeets
      have hu := hs.transaction tr htr (fatalError_eq_none_of_meetsNoFatalError hmeets.2)
      exact ih hu hrun hmeets.2

/-- Settles O53, by induction on the sequence: power-on is good, and each transaction keeps it so. -/
theorem everyReachedStateIsGood : Obligations.EveryReachedStateIsGood := by
  unfold Obligations.EveryReachedStateIsGood
  intro ts p s hrun hmeets
  exact (State.inv_powerOn p).of_runTransactions hrun hmeets

end Sys2Proof.Machine
end

section
/-! PROOF. The registers (spec/10_state.md): good states over a step and at power-on, which instructions
write which register, and what power-on leaves. -/

namespace Sys2Proof.Machine

/-! ### Good states over a step and at power-on -/

/-- Settles O50: a step that completes keeps a good state good, and so does RomNotLoaded. -/
theorem stepKeepsTheInvariant : Obligations.StepKeepsTheInvariant := by
  unfold Obligations.StepKeepsTheInvariant
  intro s hs
  exact ⟨fun _ => hs.step_next, fun _ _ => hs.step_certain⟩

/-- Settles O51: the reset state is power-on with the default parameters. -/
theorem powerOnMeetsTheInvariant : Obligations.PowerOnMeetsTheInvariant := by
  unfold Obligations.PowerOnMeetsTheInvariant
  exact ⟨State.inv_powerOn Params.default, State.inv_powerOn⟩

/-! ### The writers of each register -/

/-- A V register outside an instruction's destinations keeps its value (R21, R22). -/
theorem exec_getV_of_notMem_writesV {i : Instr} {s t : State} {r : Reg} (h : exec i s = .next t)
    (hr : r ∉ i.writesV) : t.getV r = s.getV r := by
  cases i <;> simp only [exec] at h <;>
    simp only [Instr.writesV, List.mem_cons, List.not_mem_nil, or_false, not_or, not_false_eq_true] at hr
  case ret => obtain ⟨-, rfl⟩ := execRet_next h; rfl
  case call => obtain ⟨-, rfl⟩ := execCall_next h; exact s.getV_stackWrite _ _ r
  case ldVKey =>
    unfold execLdVKey at h
    split at h <;> cases h
    · exact s.getV_setV_ne _ hr
    · rfl
  case drw =>
    cases h
    exact ((State.DrawFrame.setV_regF s 0).trans (State.drawSprite_frame _ _ _ _)).regs r hr
  case loadRegs => cases h; exact (s.getV_loadFrom _ r).trans (if_neg hr)
  case restoreFlags => cases h; exact (s.getV_restoreFrom _ r).trans (if_neg hr)
  case saveFlags => cases h; rw [s.saveFrom_eq]; rfl
  case rnd => cases h; exact s.getV_setV_ne _ hr
  case ldDtV | ldStV | storeRegs => cases h; rfl
  all_goals cases h; simp [State.getV_setV, State.getV_setResultThenFlag, hr]

/-- A skip changes PC and nothing else (R154). -/
theorem State.skipIf_eq (s : State) (c : Bool) : s.skipIf c = { s with pc := (s.skipIf c).pc } := by
  cases c <;> rfl

/-- What an instruction may do to the state, by the registers it writes other than V: PC, SP with PC, I, one
timer, the flag registers, or none of them (R23 to R25, R27, R28, R32). -/
inductive WritesRegisters (i : Instr) (s : State) : State → Prop
  | none (v : Vector Byte 16) (m : Memory) (d : Vector Byte 255) (n : Nat) :
      WritesRegisters i s { s with v := v, memory := m, dfb := d, draws := n }
  | pc (hpc : i.writesPc = true) (v : Vector Byte 16) (a : Word) :
      WritesRegisters i s { s with v := v, pc := a }
  | sp (hsp : i.writesSp = true) (hpc : i.writesPc = true) (k : Nat) (a : Word) (m : Memory) :
      WritesRegisters i s { s with sp := k, pc := a, memory := m }
  | i (hi : i.writesI = true) (v : Vector Byte 16) (a : Word) (m : Memory) :
      WritesRegisters i s { s with v := v, i := a, memory := m }
  | dt (x : Reg) (hx : i = .ldDtV x) (b : Byte) : WritesRegisters i s { s with dt := b }
  | st (x : Reg) (hx : i = .ldStV x) (b : Byte) : WritesRegisters i s { s with st := b }
  | flag (x : Reg) (hx : i = .saveFlags x) (f : Vector Byte 16) : WritesRegisters i s { s with flag := f }

/-- An instruction that completes writes only the registers the rules name it a writer of. -/
theorem exec_writesRegisters {i : Instr} {s t : State} (h : exec i s = .next t) :
    WritesRegisters i s t := by
  cases i <;> simp only [exec] at h
  case ret => obtain ⟨-, rfl⟩ := execRet_next h; exact .sp rfl rfl _ _ _
  case call => obtain ⟨-, rfl⟩ := execCall_next h; rw [s.stackWrite_eq]; exact .sp rfl rfl _ _ _
  case ldVKey => unfold execLdVKey at h; split at h <;> cases h <;> exact .pc rfl _ _
  case jp | jpV0 => cases h; exact .pc rfl _ _
  case seImm | sneImm | seReg | sneReg | skp | sknp => cases h; rw [s.skipIf_eq]; exact .pc rfl _ _
  case ldI | addI | ldFont | storeRegs => cases h; exact .i rfl _ _ _
  case loadRegs => cases h; rw [State.setI, s.loadFrom_eq]; exact .i rfl _ _ _
  case ldDtV x => cases h; exact .dt x rfl _
  case ldStV x => cases h; exact .st x rfl _
  case saveFlags x => cases h; rw [s.saveFrom_eq]; exact .flag x rfl _
  case restoreFlags => cases h; rw [s.restoreFrom_eq]; exact .none _ _ _ _
  case cls => cases h; rw [s.fbClear_frame.eq]; exact .none _ _ _ _
  case drw => cases h; rw [((s.setV regF 0).drawSprite_frame _ _ _).eq]; exact .none _ _ _ _
  all_goals cases h; exact .none _ _ _ _

/-- Settles O47: the V registers by the destinations, the others by what the instruction writes. -/
theorem registersChangeOnlyByTheirWriters : Obligations.RegistersChangeOnlyByTheirWriters := by
  unfold Obligations.RegistersChangeOnlyByTheirWriters
  intro i s t h
  refine ⟨fun _ hr => exec_getV_of_notMem_writesV h hr, ?_⟩
  cases exec_writesRegisters h with
  | none => simp
  | pc hpc => simp [hpc]
  | sp hsp hpc => simp [hsp, hpc]
  | i hi => simp [hi]
  | dt x hx => simp [hx]
  | st x hx => simp [hx]
  | flag x hx => simp [hx]

/-! ### Power-on -/

/-- Above the font, power-on memory reads 0 (R37). -/
theorem Memory.background_eq_zero {a : Nat} (h : 0x050 ≤ a) : Memory.background a = 0 :=
  List.getD_eq_default _ _ h

/-- At power-on an address reads as the background does (R80). -/
theorem State.readByte_powerOn (p : Params) (a : Nat) :
    (State.powerOn p).readByte a = Memory.background (cellOf a) := rfl

/-- The V registers at power-on are zero (R37). -/
theorem State.getV_powerOn (p : Params) (r : Reg) : (State.powerOn p).getV r = 0 := by
  simp [State.getV, State.powerOn]

/-- The flag registers at power-on are zero (R37). -/
theorem State.getFlag_powerOn (p : Params) (r : Reg) : (State.powerOn p).getFlag r = 0 := by
  simp [State.getFlag, State.powerOn]

/-- At power-on no key is pressed (R37). -/
theorem State.keyDown_powerOn (p : Params) (k : Fin 16) : (State.powerOn p).keyDown k = false := by
  simp [State.keyDown, State.powerOn]

/-- Settles O55: the fields by definition, the registers and memory by what they read at power-on. -/
theorem powerOnValues : Obligations.PowerOnValues := by
  unfold Obligations.PowerOnValues
  intro p
  have hregs (r : Reg) : (State.powerOn p).getV r = 0 ∧ (State.powerOn p).getFlag r = 0 ∧
      (State.powerOn p).keyDown r = false :=
    ⟨State.getV_powerOn p r, State.getFlag_powerOn p r, State.keyDown_powerOn p r⟩
  have hmem (a : Nat) (hlo : 0x050 ≤ a) (hhi : a < 4096) : (State.powerOn p).readByte a = 0 := by
    rw [State.readByte_powerOn, cellOf, Nat.mod_eq_of_lt hhi, Memory.background_eq_zero hlo]
  exact ⟨rfl, rfl, rfl, hmem, hregs, rfl, rfl, rfl, rfl, rfl, rfl, rfl, rfl, rfl⟩

end Sys2Proof.Machine
end

section
/-! PROOF. Memory (spec/20_memory.md): what canonical memories that read alike are, which instructions leave
memory and the framebuffer alone, and that a fetch reads the bytes a store left. -/

namespace Sys2Proof.Machine

/-! ### Canonical memories -/

/-- What the canonical form asks of the first cell listed and of the rest. -/
theorem Memory.wfFrom_cons {lo k : Nat} {b : Byte} {rest : Memory} :
    Memory.wfFrom lo ((k, b) :: rest) = true ↔
      lo ≤ k ∧ k < Config.memSize ∧ b ≠ Memory.background k ∧ rest.wfFrom (k + 1) = true := by
  simp [Memory.wfFrom, and_assoc]

/-- The cell at the head of the list reads as listed. -/
theorem Memory.lookup_head (k : Nat) (b : Byte) (rest : Memory) :
    Memory.lookup ((k, b) :: rest) k = b := if_pos rfl

/-- Every other cell reads as the rest of the list says. -/
theorem Memory.lookup_cons_ne {k a : Nat} (b : Byte) (rest : Memory) (h : a ≠ k) :
    Memory.lookup ((k, b) :: rest) a = rest.lookup a := if_neg h

/-- Below the addresses of a canonical list, memory reads as the background. -/
theorem Memory.lookup_of_lt {m : Memory} {lo a : Nat} (h : m.wfFrom lo = true) (ha : a < lo) :
    m.lookup a = Memory.background a := by
  induction m generalizing lo with
  | nil => rfl
  | cons e rest ih =>
    obtain ⟨k, b⟩ := e
    obtain ⟨hlo, -, -, hrest⟩ := Memory.wfFrom_cons.mp h
    rw [Memory.lookup_cons_ne b rest (by omega)]
    exact ih hrest (by omega)

/-- A canonical list that reads alike at the first address of another starts no higher than it: the first cell
listed there is not the background, and a canonical list reads as the background below its own addresses. -/
theorem Memory.le_of_lookup_head_eq {m rest : Memory} {lo lo' k : Nat} {b : Byte}
    (h : Memory.wfFrom lo ((k, b) :: rest) = true) (h' : m.wfFrom lo' = true)
    (hk : Memory.lookup ((k, b) :: rest) k = m.lookup k) : lo' ≤ k := by
  obtain ⟨-, -, hb, -⟩ := Memory.wfFrom_cons.mp h
  by_contra hlt
  rw [Memory.lookup_head, Memory.lookup_of_lt h' (Nat.lt_of_not_le hlt)] at hk
  exact hb hk

/-- The canonical form may be counted from the first address listed. -/
theorem Memory.wfFrom_head {lo k : Nat} {b : Byte} {rest : Memory}
    (h : Memory.wfFrom lo ((k, b) :: rest) = true) : Memory.wfFrom k ((k, b) :: rest) = true :=
  Memory.wfFrom_cons.mpr ⟨le_rfl, (Memory.wfFrom_cons.mp h).2⟩

/-- Canonical lists whose cells hold the same bytes are equal. -/
theorem Memory.eq_of_lookup_eq {m m' : Memory} {lo : Nat} (h : m.wfFrom lo = true)
    (h' : m'.wfFrom lo = true) (heq : ∀ a < Config.memSize, m.lookup a = m'.lookup a) : m = m' := by
  induction m generalizing m' lo with
  | nil =>
    cases m' with
    | nil => rfl
    | cons e' rest' =>
      obtain ⟨-, hk', hb', -⟩ := Memory.wfFrom_cons.mp h'
      exact absurd ((Memory.lookup_head ..).symm.trans (heq e'.1 hk').symm) hb'
  | cons e rest ih =>
    obtain ⟨k, b⟩ := e
    obtain ⟨-, hk, hb, hrest⟩ := Memory.wfFrom_cons.mp h
    cases m' with
    | nil => exact absurd ((Memory.lookup_head ..).symm.trans (heq k hk)) hb
    | cons e' rest' =>
      obtain ⟨k', b'⟩ := e'
      obtain ⟨-, hk', -, hrest'⟩ := Memory.wfFrom_cons.mp h'
      obtain rfl : k = k' :=
        le_antisymm (Memory.le_of_lookup_head_eq h' (Memory.wfFrom_head h) (heq k' hk').symm)
          (Memory.le_of_lookup_head_eq h (Memory.wfFrom_head h') (heq k hk))
      have hbb : b = b' := by simpa only [Memory.lookup_head] using heq k hk
      have hcells (a : Nat) (ha : a < Config.memSize) : Memory.lookup rest a = Memory.lookup rest' a := by
        by_cases hak : a = k
        · rw [Memory.lookup_of_lt hrest (by omega), Memory.lookup_of_lt hrest' (by omega)]
        · simpa only [Memory.lookup_cons_ne _ _ hak] using heq a ha
      rw [hbb, ih hrest hrest' hcells]

/-- Settles O54: below 4096 a read is the byte of the cell, so the lists agree by induction. -/
theorem canonicalMemoriesThatReadAlikeAreEqual :
    Obligations.CanonicalMemoriesThatReadAlikeAreEqual := by
  unfold Obligations.CanonicalMemoriesThatReadAlikeAreEqual
  intro m m' h h' heq
  refine Memory.eq_of_lookup_eq h h' fun a ha => ?_
  simpa only [Memory.read, cellOf, Nat.mod_eq_of_lt ha] using heq a

/-! ### The writers of memory -/

/-- An instruction that R78 does not list leaves the memory and the detached buffer as they were. -/
theorem exec_memory_dfb_of_not_storesMemory {i : Instr} {s t : State} (h : exec i s = .next t)
    (hi : i.storesMemory = false) : t.memory = s.memory ∧ t.dfb = s.dfb := by
  cases i <;> simp only [exec] at h
  case call | cls | drw | ldBcd | storeRegs => cases hi
  case ret => obtain ⟨-, rfl⟩ := execRet_next h; exact ⟨rfl, rfl⟩
  case ldVKey => unfold execLdVKey at h; split at h <;> cases h <;> exact ⟨rfl, rfl⟩
  case seImm | sneImm | seReg | sneReg | skp | sknp => cases h; rw [s.skipIf_eq]; exact ⟨rfl, rfl⟩
  case loadRegs => cases h; rw [State.setI, s.loadFrom_eq]; exact ⟨rfl, rfl⟩
  case saveFlags => cases h; rw [s.saveFrom_eq]; exact ⟨rfl, rfl⟩
  case restoreFlags => cases h; rw [s.restoreFrom_eq]; exact ⟨rfl, rfl⟩
  all_goals cases h; exact ⟨rfl, rfl⟩

/-- The picture is read from the memory and the detached buffer, by the mode (R68). -/
theorem State.fbRead_congr {s t : State} (hmem : t.memory = s.memory) (hdfb : t.dfb = s.dfb)
    (hmode : t.fbDetached = s.fbDetached) (fi : Nat) : t.fbRead fi = s.fbRead fi := by
  simp only [State.fbRead, State.readByte, hmem, hdfb, hmode]

/-- Settles O48: no instruction changes the framebuffer mode, and one that is not listed changes neither
buffer. -/
theorem memoryChangesOnlyByTheListedWriters : Obligations.MemoryChangesOnlyByTheListedWriters := by
  unfold Obligations.MemoryChangesOnlyByTheListedWriters
  intro i s t h hi
  obtain ⟨hmem, hdfb⟩ := exec_memory_dfb_of_not_storesMemory h hi
  have hmode : t.fbDetached = s.fbDetached := by rw [exec_next_eq h]
  have hread : SameMemory s t := fun a => congrArg (·.read a) hmem
  exact ⟨hread, hmem, hdfb, State.fbRead_congr hmem hdfb hmode⟩

/-! ### Stores and fetches -/

/-- Addresses of one cell read alike (R62). -/
theorem State.readByte_eq_of_cellOf_eq (s : State) {a c : Nat} (h : cellOf a = cellOf c) :
    s.readByte a = s.readByte c := congrArg s.memory.lookup h

/-- Moving a 16-bit base, modulo 65536, and moving the offset lead to the same cell, 4096 being a divisor of
65536 (R62). -/
theorem cellOf_byteAddr_add (base : Word) (j k : Nat) :
    cellOf (byteAddr (base + BitVec.ofNat 16 j) k) = cellOf (byteAddr base (j + k)) := by
  simp only [cellOf, byteAddr, Config.memSize, BitVec.toNat_add, BitVec.toNat_ofNat]
  omega

/-- Entry `k` of the range up to `x` is register `k`. -/
theorem getElem_regRange {x k : Reg} (h : k.val < (regRange x).length) : (regRange x)[k.val] = k :=
  Fin.ext (getElem_regRange_eq x k.val h)

/-- `FX55` leaves V[k] at the address `k` past the I it started from, for every k up to X (R194). -/
theorem readByte_of_exec_storeRegs {x k : Reg} {s t : State} (hwf : s.memory.wf = true)
    (h : exec (.storeRegs x) s = .next t) (hk : k ≤ x) :
    t.readByte (byteAddr s.i k.val) = s.getV k := by
  cases h
  have hlen : (regRange x).length = x.val + 1 := length_regRange x
  have hin : k.val < (regRange x).length := hlen ▸ Nat.lt_succ_of_le hk
  calc (s.writeBytes (byteAddr s.i 0) ((regRange x).map s.getV)).readByte (byteAddr s.i 0 + k.val)
      = ((regRange x).map s.getV)[k.val]'(by simpa using hin) :=
        s.readByte_writeBytes_at _ _ hwf (by simp only [List.length_map, Config.memSize]; omega) _ _
    _ = s.getV k := by rw [List.getElem_map, getElem_regRange hin]

/-- Settles O37: the two cells of the word are those of `FX55`'s stores of V[j] and V[j+1]. -/
theorem storedBytesAreFetched : Obligations.StoredBytesAreFetched := by
  unfold Obligations.StoredBytesAreFetched
  intro x s t j k hwf h hjk hk
  have hj : j ≤ x := le_trans (Fin.le_def.mpr (by omega)) hk
  have hhi : t.readByte (byteAddr (s.i + BitVec.ofNat 16 j.val) 0) = s.getV j :=
    (t.readByte_eq_of_cellOf_eq (cellOf_byteAddr_add s.i j.val 0)).trans
      (readByte_of_exec_storeRegs hwf h hj)
  have hlo : t.readByte (byteAddr (s.i + BitVec.ofNat 16 j.val) 1) = s.getV k := by
    rw [t.readByte_eq_of_cellOf_eq (cellOf_byteAddr_add s.i j.val 1), ← hjk]
    exact readByte_of_exec_storeRegs hwf h hk
  rw [State.wordAt, hhi, hlo]

end Sys2Proof.Machine
end

section
/-! PROOF. Encoding (spec/30_encoding.md): decoding and encoding undo each other, and the words that decode are
those of the opcode map. -/

namespace Sys2Proof

/-! ### Decoding an encoded instruction -/

/-- The decoder finds the family and the sub-code the encoder wrote, and reads back its operands (R92, R94). -/
theorem decode_encode {i : Instr} (h : i.wf = true) : decode (encode i) = .ok i := by
  cases i
  case nop | cls | ret => rfl
  case jp | call | ldI | jpV0 => simp [encode, decode]
  case seImm | sneImm | ldImm | addImm | rnd => simp [encode, decode]
  case seReg | sneReg => simp [encode, decode, decodeNibbleZero]
  case drw x y n =>
    have hn : n < 16 := of_decide_eq_true h
    simp [encode, decode, Nat.mod_eq_of_lt hn]
  case skp | sknp => simp [encode, decode, decodeFamilyE]
  case ldReg | orReg | andReg | xorReg | addReg | subReg | shrReg | subnReg | shlReg =>
    simp [encode, decode, decodeFamily8]
  all_goals simp [encode, decode, decodeFamilyF]

/-- Settles O1: the fields of an encoded word are the instruction's own. -/
theorem decodeGivesBackEveryEncodedInstruction :
    Obligations.DecodeGivesBackEveryEncodedInstruction := by
  unfold Obligations.DecodeGivesBackEveryEncodedInstruction
  exact fun _ h => decode_encode h

/-! ### Encoding a decoded word -/

/-- A word is its family and its address (R92). -/
theorem formatA_of_fields {op : Word} {f : BitVec 4} {nnn : Addr} (hf : fieldF op = f)
    (hnnn : fieldNNN op = nnn) : f ++ nnn = op := by
  subst hf hnnn
  apply BitVec.eq_of_toNat_eq
  rw [formatA_toNat, fieldF_toNat, fieldNNN_toNat]
  omega

/-- A word is its family, its X and its low byte (R92). -/
theorem formatRI_of_fields {op : Word} {f : BitVec 4} {nn : Byte} (hf : fieldF op = f)
    (hnn : fieldNN op = nn) : f ++ regBits (fieldX op) ++ nn = op := by
  subst hf hnn
  apply BitVec.eq_of_toNat_eq
  rw [formatRI_toNat, fieldF_toNat, fieldX_val, fieldNN_toNat]
  omega

/-- A word is its family, its X, its Y and its low nibble (R92). -/
theorem formatRR_of_fields {op : Word} {f n : BitVec 4} (hf : fieldF op = f) (hn : fieldN op = n) :
    f ++ regBits (fieldX op) ++ regBits (fieldY op) ++ n = op := by
  subst hf hn
  apply BitVec.eq_of_toNat_eq
  rw [formatRR_toNat, fieldF_toNat, fieldX_val, fieldY_val, fieldN_toNat]
  omega

/-- Whatever instruction a decoder's answer holds, it is well-formed and its word is `op`. -/
def Reencodes (op : Word) (answer : Except Reject Instr) : Prop :=
  ∀ i, answer = .ok i → encode i = op ∧ i.wf = true

namespace Reencodes

variable {op : Word}

theorem ok {i : Instr} (hop : encode i = op) (hwf : i.wf = true) : Reencodes op (.ok i) := by
  rintro _ ⟨⟩
  exact ⟨hop, hwf⟩

theorem error (r : Reject) : Reencodes op (.error r) := nofun

/-- One test of the decoder: the answer when it succeeds, and the rest of the tests when it fails. -/
theorem ite {c : Prop} [Decidable c] {a b : Except Reject Instr} (ha : c → Reencodes op a)
    (hb : ¬ c → Reencodes op b) : Reencodes op (if c then a else b) := by
  split
  · exact ha ‹_›
  · exact hb ‹_›

/-- Family 0 is matched on all its bits (R97). -/
theorem of_family0 (hf : fieldF op = 0x0#4) : Reencodes op (decodeFamily0 op) := by
  unfold decodeFamily0
  repeat refine ite (fun hnnn => ok (formatA_of_fields hf hnnn) rfl) fun _ => ?_
  exact error _

theorem of_nibbleZero {i : Instr} (hop : fieldN op = 0x0#4 → encode i = op) (hwf : i.wf = true) :
    Reencodes op (decodeNibbleZero i op) :=
  ite (fun hn => ok (hop hn) hwf) fun _ => error _

theorem of_family8 (hf : fieldF op = 0x8#4) : Reencodes op (decodeFamily8 op) := by
  unfold decodeFamily8
  repeat refine ite (fun hn => ok (formatRR_of_fields hf hn) rfl) fun _ => ?_
  exact error _

theorem of_familyE (hf : fieldF op = 0xE#4) : Reencodes op (decodeFamilyE op) := by
  unfold decodeFamilyE
  repeat refine ite (fun hnn => ok (formatRI_of_fields hf hnn) rfl) fun _ => ?_
  exact error _

theorem of_familyF (hf : fieldF op = 0xF#4) : Reencodes op (decodeFamilyF op) := by
  unfold decodeFamilyF
  repeat refine ite (fun hnn => ok (formatRI_of_fields hf hnn) rfl) fun _ => ?_
  exact error _

/-- The family nibble settles the format of the word (R92), and its sub-code the rest (R94);
family F is what the fifteen tests leave. -/
theorem of_decode (op : Word) : Reencodes op (decode op) :=
  ite of_family0 fun _ =>
  ite (fun hf => ok (formatA_of_fields hf rfl) rfl) fun _ =>
  ite (fun hf => ok (formatA_of_fields hf rfl) rfl) fun _ =>
  ite (fun hf => ok (formatRI_of_fields hf rfl) rfl) fun _ =>
  ite (fun hf => ok (formatRI_of_fields hf rfl) rfl) fun _ =>
  ite (fun hf => of_nibbleZero (formatRR_of_fields hf) rfl) fun _ =>
  ite (fun hf => ok (formatRI_of_fields hf rfl) rfl) fun _ =>
  ite (fun hf => ok (formatRI_of_fields hf rfl) rfl) fun _ =>
  ite of_family8 fun _ =>
  ite (fun hf => of_nibbleZero (formatRR_of_fields hf) rfl) fun _ =>
  ite (fun hf => ok (formatA_of_fields hf rfl) rfl) fun _ =>
  ite (fun hf => ok (formatA_of_fields hf rfl) rfl) fun _ =>
  ite (fun hf => ok (formatRI_of_fields hf rfl) rfl) fun _ =>
  ite (fun hf => ok (formatRR_of_fields hf (by simp)) (decide_eq_true (fieldN op).isLt)) fun _ =>
  ite of_familyE fun _ => of_familyF (by bv_omega)

end Reencodes

/-- Settles O2: every answer of the decoder is put back into the word it was read from. -/
theorem encodeGivesBackEveryDecodedWord : Obligations.EncodeGivesBackEveryDecodedWord := by
  unfold Obligations.EncodeGivesBackEveryDecodedWord
  exact Reencodes.of_decode

/-! ### The rows of the opcode map -/

/-- The opcode map lists the row of one instruction of each kind (R95). -/
theorem opcodeRows_eq_map : opcodeRows =
    [Instr.nop, .cls, .ret, .jp 0, .call 0, .seImm 0 0, .sneImm 0 0, .seReg 0 0, .ldImm 0 0, .addImm 0 0,
      .ldReg 0 0, .orReg 0 0, .andReg 0 0, .xorReg 0 0, .addReg 0 0, .subReg 0 0, .shrReg 0 0,
      .subnReg 0 0, .shlReg 0 0, .sneReg 0 0, .ldI 0, .jpV0 0, .rnd 0 0, .drw 0 0 0, .skp 0, .sknp 0,
      .ldVDt 0, .ldVKey 0, .ldDtV 0, .ldStV 0, .addI 0, .ldFont 0, .ldBcd 0, .storeRegs 0, .loadRegs 0,
      .saveFlags 0, .restoreFlags 0].map Instr.row := rfl

/-- Every row of the opcode map is some instruction's. -/
theorem exists_row_eq {r : Row} (h : r ∈ opcodeRows) : ∃ i : Instr, i.row = r := by
  rw [opcodeRows_eq_map, List.mem_map] at h
  obtain ⟨i, -, hi⟩ := h
  exact ⟨i, hi⟩

open Laws.EncodedRow in
/-- The row of every instruction is in the opcode map, and the instruction's word selects it. -/
theorem row_mem_and_selects_encode (i : Instr) : Laws.EncodedRow.Statement i :=
  i.rec nop cls ret jp call seImm sneImm seReg ldImm addImm ldReg orReg andReg xorReg addReg subReg
    shrReg subnReg shlReg sneReg ldI jpV0 rnd drw skp sknp ldVDt ldVKey ldDtV ldStV addI ldFont ldBcd
    storeRegs loadRegs saveFlags restoreFlags

/-! ### A word that selects a row -/

section Selects

variable {op : Word}

/-- A field of a word that selects a row is the row's, where the row's mask covers it. -/
theorem Row.extractLsb'_eq_of_selects {r : Row} (h : r.selects op = true) {start len : Nat}
    (hm : r.mask.extractLsb' start len = BitVec.allOnes len) :
    op.extractLsb' start len = r.value.extractLsb' start len := by
  have hand : op &&& r.mask = r.value := beq_iff_eq.mp h
  rw [← hand, BitVec.extractLsb'_and, hm, BitVec.and_allOnes]

/-- A word that selects an instruction's row decodes to an instruction of that row: the bits its mask
covers are those the decoder tests (R94, R95). -/
theorem exists_decode_of_row_selects {i : Instr} (h : i.row.selects op = true) :
    ∃ j, decode op = .ok j ∧ j.row = i.row := by
  cases i
  all_goals
    dsimp only [Instr.row] at h ⊢
    have hf : fieldF op = fieldF _ := Row.extractLsb'_eq_of_selects h rfl
    rw [decode, hf]
  case nop | cls | ret =>
    have hnnn : fieldNNN op = fieldNNN _ := Row.extractLsb'_eq_of_selects h rfl
    rw [decodeFamily0, hnnn]
    exact ⟨_, rfl, rfl⟩
  case jp | call | seImm | sneImm | ldImm | addImm | ldI | jpV0 | rnd | drw => exact ⟨_, rfl, rfl⟩
  case seReg | sneReg =>
    have hn : fieldN op = fieldN _ := Row.extractLsb'_eq_of_selects h rfl
    simp only [decodeNibbleZero, hn]
    exact ⟨_, rfl, rfl⟩
  case ldReg | orReg | andReg | xorReg | addReg | subReg | shrReg | subnReg | shlReg =>
    have hn : fieldN op = fieldN _ := Row.extractLsb'_eq_of_selects h rfl
    rw [decodeFamily8, hn]
    exact ⟨_, rfl, rfl⟩
  case skp | sknp =>
    have hnn : fieldNN op = fieldNN _ := Row.extractLsb'_eq_of_selects h rfl
    rw [decodeFamilyE, hnn]
    exact ⟨_, rfl, rfl⟩
  all_goals
    have hnn : fieldNN op = fieldNN _ := Row.extractLsb'_eq_of_selects h rfl
    rw [decodeFamilyF, hnn]
    exact ⟨_, rfl, rfl⟩

/-- A word that selects a row of the opcode map decodes to an instruction of that row. -/
theorem exists_decode_of_selects {r : Row} (hr : r ∈ opcodeRows) (h : r.selects op = true) :
    ∃ i, decode op = .ok i ∧ i.row = r := by
  obtain ⟨i, rfl⟩ := exists_row_eq hr
  exact exists_decode_of_row_selects h

/-- A word that decodes is the word of its instruction, which selects the instruction's row. -/
theorem row_selects_of_decode {i : Instr} (h : decode op = .ok i) : i.row.selects op = true := by
  obtain ⟨rfl, -⟩ := Reencodes.of_decode op i h
  exact (row_mem_and_selects_encode i).2

end Selects

/-- Settles O3: two rows one word selects are both the row of the instruction it decodes to. -/
theorem decodeAcceptsExactlyTheOpcodeMap : Obligations.DecodeAcceptsExactlyTheOpcodeMap := by
  unfold Obligations.DecodeAcceptsExactlyTheOpcodeMap
  intro op
  refine ⟨⟨?_, ?_⟩, fun _ => row_selects_of_decode, ?_⟩
  · rintro ⟨i, hi⟩
    exact ⟨i.row, (row_mem_and_selects_encode i).1, row_selects_of_decode hi⟩
  · rintro ⟨r, hr, hsel⟩
    obtain ⟨i, hi, -⟩ := exists_decode_of_selects hr hsel
    exact ⟨i, hi⟩
  · intro r hr q hq hrsel hqsel
    obtain ⟨i, hi, rfl⟩ := exists_decode_of_selects hr hrsel
    obtain ⟨j, hj, rfl⟩ := exists_decode_of_selects hq hqsel
    obtain rfl : i = j := Except.ok.inj (hi.symm.trans hj)
    rfl

/-! ### Words written out -/

/-- Settles O4: each word is decoded from its two bytes. -/
theorem writtenOutWordsDecode : Obligations.WrittenOutWordsDecode := by
  unfold Obligations.WrittenOutWordsDecode
  decide

end Sys2Proof
end

section
/-! PROOF. The step cycle (spec/40_step_cycle.md): the checks before dispatch, the word a placed program
fetches, the timer cadence, and the counter kept modulo 6. -/

namespace Sys2Proof.Machine

/-! ### The checks before dispatch -/

/-- A step after a fatal error is refused (R270). -/
theorem step_of_fatalError {s : State} {k : ErrorKind} (h : s.fatalError = some k) :
    step s = .refused (.stepAfterFatalError k) := by
  simp only [step, cycle, h]

/-- With no fatal error pending, a step is the RomNotLoaded check, the bounds check and the rest (R120). -/
theorem step_of_running {s : State} (h : s.fatalError = none) :
    step s =
      if s.romLoaded = false then s.raise .romNotLoaded
      else if s.inBounds then fetchExecute s
      else .next (s.answer .halt) := by
  simp only [step, cycle, h]

/-- With a ROM loaded and PC inside the program, a step fetches (R122). -/
theorem step_of_inBounds {s : State} (hf : s.fatalError = none) (hr : s.romLoaded = true)
    (hb : s.inBounds = true) : step s = fetchExecute s := by
  simp [step_of_running hf, hr, hb]

/-- With a ROM loaded and PC outside the program, a step answers Halt (R122). -/
theorem step_of_outOfBounds {s : State} (hf : s.fatalError = none) (hr : s.romLoaded = true)
    (hb : ¬ (0x200 ≤ s.pc.toNat ∧ s.pc.toNat < 0x200 + s.romSize)) :
    step s = .next (s.answer .halt) := by
  rw [← s.inBounds_iff] at hb
  simp [step_of_running hf, hr, hb]

/-- Settles O7: the RomNotLoaded check comes first and raises with the state as it stands. -/
theorem stepWithoutRomRaisesRomNotLoaded : Obligations.StepWithoutRomRaisesRomNotLoaded := by
  unfold Obligations.StepWithoutRomRaisesRomNotLoaded
  intro s hf hr
  rw [step_of_running hf, if_pos hr]
  rfl

/-- Settles O8: the two answers of the bounds check. -/
theorem stepHaltsOutsideTheProgram : Obligations.StepHaltsOutsideTheProgram := by
  unfold Obligations.StepHaltsOutsideTheProgram
  intro s hf hr
  exact ⟨step_of_outOfBounds hf hr, fun hb => step_of_inBounds hf hr (s.inBounds_iff.mpr hb)⟩

/-- Settles O9, by induction on the number of steps: the state a bounds halt leaves is itself outside the
program with no fatal error pending, and answering Halt again leaves it as it is. -/
theorem boundsHaltRepeatsForEver : Obligations.BoundsHaltRepeatsForEver := by
  unfold Obligations.BoundsHaltRepeatsForEver
  intro n
  induction n with
  | zero =>
    intro s hf hr hb
    exact (safeRun_succ ..).mpr ⟨_, step_of_outOfBounds hf hr hb, (safeRun_zero ..).mpr rfl⟩
  | succ n ih =>
    intro s hf hr hb
    exact (safeRun_succ ..).mpr ⟨_, step_of_outOfBounds hf hr hb, ih (s.answer .halt) rfl hr hb⟩

/-! ### The dead-loop guard and dispatch -/

/-- Settles O10: the fetched word is a jump to the address it was fetched from, so the guard answers. -/
theorem selfJumpHalts : Obligations.SelfJumpHalts := by
  unfold Obligations.SelfJumpHalts
  intro s nnn hf hr hb hw ha
  have hj : State.isSelfJump s.fetchWord s.pc = true := by
    rw [State.isSelfJump_iff, hw, fieldF_formatA, fieldNNN_formatA]
    exact ⟨rfl, ha⟩
  rw [step_of_inBounds hf hr hb, fetchExecute, if_pos hj]
  rfl

/-- An instruction decoded from two bytes is decoded from the word they form (R64). -/
theorem decode_of_decodeBytes {hi lo : Byte} {i : Instr} (h : decodeBytes [hi, lo] = .ok (i, [])) :
    decode (hi ++ lo) = .ok i := by
  rw [decodeBytes] at h
  cases hd : decode (hi ++ lo) <;> rw [hd] at h <;> cases h
  rfl

/-- Settles O5: a dispatched step executes the decoded instruction past the fetch and retires its outcome. -/
theorem stepRunsTheDecodedInstruction : Obligations.StepRunsTheDecodedInstruction := by
  unfold Obligations.StepRunsTheDecodedInstruction
  intro s i hd hi
  have hstep : step s = retire s.fetchWord (exec i s.advance) := by
    rw [step_of_dispatches hd, execute_of_decode (op := s.fetchWord) (decode_of_decodeBytes hi)]
  exact ⟨fun t ht => hstep.trans (congrArg (retire s.fetchWord) ht),
    fun f hf => hstep.trans (congrArg (retire s.fetchWord) hf)⟩

/-! ### The word placed for the next step -/

/-- No program is placed below the entry point (R122). -/
theorem entryBase_le_fetchPlace (s : State) : 0x200 ≤ (fetchPlace s).toNat := by
  unfold fetchPlace
  split
  · assumption
  · decide

/-- A 16-bit word is placed as its two bytes (R64). -/
theorem withFetchWord_eq (s : State) {w : Nat} (hw : w < 65536) :
    s.withFetchWord 16 w = placeProgram s (wordBytes (BitVec.ofNat 16 w)) := by
  have hmod : w % 2 ^ 16 = w := Nat.mod_eq_of_lt hw
  rw [State.withFetchWord, tableWordBytes, hmod]

@[simp] theorem placeProgram_pc (s : State) (bs : List Byte) : (placeProgram s bs).pc = fetchPlace s := rfl

/-- A word placed as its two bytes is the word fetched, also where PC + 1 passes the end of memory. -/
theorem fetchWord_placeProgram_wordBytes (s : State) (op : Word) (h : s.memory.wf = true) :
    (placeProgram s (wordBytes op)).fetchWord = op := by
  have hlen : (wordBytes op).length ≤ Config.memSize := by simp [wordBytes, Config.memSize]
  have hbyte (k : Nat) (hk : k < 2) :
      (placeProgram s (wordBytes op)).readByte (byteAddr (fetchPlace s) k) = (wordBytes op)[k]'hk :=
    s.readByte_writeBytes_at (byteAddr (fetchPlace s) 0) (wordBytes op) h hlen k hk
  have hhi : (placeProgram s (wordBytes op)).readByte (byteAddr (fetchPlace s) 0) = hiByte op :=
    hbyte 0 (by decide)
  have hlo : (placeProgram s (wordBytes op)).readByte (byteAddr (fetchPlace s) 1) = loByte op :=
    hbyte 1 (by decide)
  rw [State.fetchWord, State.wordAt, placeProgram_pc, hhi, hlo, hiByte_append_loByte]

/-- PC lies inside a placed program that is not empty (R122). -/
theorem inBounds_placeProgram (s : State) {bs : List Byte} (h : bs ≠ []) :
    (placeProgram s bs).inBounds = true := by
  rw [State.inBounds_iff]
  have hbase := entryBase_le_fetchPlace s
  have hlen := List.length_pos_iff.mpr h
  have hsize : (placeProgram s bs).romSize = max s.romSize ((fetchPlace s).toNat - 0x200 + bs.length) := rfl
  rw [placeProgram_pc, hsize]
  omega

/-- Settles O14: the placed bytes are fetched, the program is loaded around PC and no answer is pending, so
that only the dead-loop guard is left. -/
theorem placedWordIsTheNextInstruction : Obligations.PlacedWordIsTheNextInstruction := by
  unfold Obligations.PlacedWordIsTheNextInstruction
  intro s w hwf hw
  rw [withFetchWord_eq s hw]
  have hfetch := fetchWord_placeProgram_wordBytes s (BitVec.ofNat 16 w) hwf
  refine ⟨hfetch, fun hj => ⟨rfl, rfl, inBounds_placeProgram s (by simp [wordBytes]), ?_⟩⟩
  rw [hfetch]
  exact hj

/-! ### The timer cadence -/

/-- On a count divisible by 6 the count is kept when both timers are 0 and cleared otherwise (R126). -/
theorem State.tick_tickCounter_sixth (s : State) (h : (s.tickCounter + 1) % 6 = 0) :
    s.tick.tickCounter = if s.dt = 0 ∧ s.st = 0 then s.tickCounter + 1 else 0 := by
  simp only [State.tick, Config.tickDivisor, if_pos h]

/-- Settles O15: the count decides whether the timers move, and the timers whether the count is cleared. -/
theorem tickDecrementsOnEverySixthCount : Obligations.TickDecrementsOnEverySixthCount := by
  unfold Obligations.TickDecrementsOnEverySixthCount
  intro s
  refine ⟨s.tick_notSixth, fun h => ⟨?_, ?_, fun hpos => ?_, fun hzero => ?_, s.tick_eq⟩⟩
  · rw [s.tick_dt_toNat, if_pos h]
  · rw [s.tick_st_toNat, if_pos h]
  · rw [s.tick_tickCounter_sixth h, if_neg]
    rintro ⟨hdt, hst⟩
    simp [hdt, hst] at hpos
  · obtain ⟨hdt, hst⟩ := hzero
    rw [s.tick_tickCounter_sixth h, if_pos ⟨BitVec.eq_of_toNat_eq hdt, BitVec.eq_of_toNat_eq hst⟩]

/-- The multiples of 6 passed by `n + 1` counts: the one of the first count, if it is one, and those of the
other `n`. -/
theorem sixths_passed_succ (c n : Nat) :
    (c % 6 + (n + 1)) / 6 = (if (c + 1) % 6 = 0 then 1 else 0) + ((c + 1) % 6 + n) / 6 := by
  split <;> omega

/-- Settles O16, by induction on the number of ticks: the first tick takes the multiple of 6 it may meet, and
the residue of the count goes on, whether or not the count was cleared. -/
theorem timersFallOncePerSixTicks : Obligations.TimersFallOncePerSixTicks := by
  unfold Obligations.TimersFallOncePerSixTicks
  intro n
  induction n with
  | zero =>
    intro s
    have hnone : (s.tickCounter % 6 + 0) / 6 = 0 := Nat.div_eq_of_lt (Nat.mod_lt _ (by decide))
    simp only [Function.iterate_zero_apply, hnone, Nat.sub_zero, and_self]
  | succ n ih =>
    intro s
    obtain ⟨hdt, hst⟩ := ih s.tick
    rw [Function.iterate_succ_apply, hdt, hst, s.tick_tickCounter_mod, s.tick_dt_toNat, s.tick_st_toNat,
      sixths_passed_succ, Nat.sub_sub, Nat.sub_sub]
    exact ⟨rfl, rfl⟩

/-! ### The counter modulo 6: operations -/

namespace State

variable (s : State)

/-- Keeping a counter modulo 6 twice is keeping it so once. -/
theorem modSix_modSix : s.modSix.modSix = s.modSix := by
  simp only [modSix, Nat.mod_mod]

/-- A tick goes by the counter's residue alone (R130). -/
theorem modSix_tick_modSix : s.modSix.tick.modSix = s.tick.modSix := by
  have hc : s.modSix.tick.tickCounter % 6 = s.tick.tickCounter % 6 := by
    simp only [tick_tickCounter_mod, modSix_tickCounter, Nat.mod_add_mod]
  have hdt : s.modSix.tick.dt = s.tick.dt :=
    BitVec.eq_of_toNat_eq (by simp only [tick_dt_toNat, modSix_dt, modSix_tickCounter, Nat.mod_add_mod])
  have hst : s.modSix.tick.st = s.tick.st :=
    BitVec.eq_of_toNat_eq (by simp only [tick_st_toNat, modSix_st, modSix_tickCounter, Nat.mod_add_mod])
  rw [s.modSix.tick_eq, s.tick_eq, hdt, hst]
  simp only [modSix, Config.tickDivisor] at hc ⊢
  rw [hc]

theorem skipIf_modSix (c : Bool) : s.modSix.skipIf c = (s.skipIf c).modSix := by
  cases c <;> rfl

theorem stackWrite_modSix (n : Nat) (w : Word) : s.modSix.stackWrite n w = (s.stackWrite n w).modSix := by
  unfold stackWrite
  rw [modSix_params]
  split <;> rfl

theorem writeBytes_modSix (a : Nat) (bs : List Byte) :
    s.modSix.writeBytes a bs = (s.writeBytes a bs).modSix := rfl

theorem fbWrite_modSix (fi : Nat) (b : Byte) : s.modSix.fbWrite fi b = (s.fbWrite fi b).modSix := by
  unfold fbWrite
  rw [modSix_fbDetached]
  split <;> rfl

theorem fbClear_modSix : s.modSix.fbClear = s.fbClear.modSix := by
  unfold fbClear
  rw [modSix_fbDetached]
  split
  · rfl
  · exact s.writeBytes_modSix _ _

theorem drawPixel_modSix (startX startY : Byte) (row : Nat) (b : Byte) (col : Nat) :
    s.modSix.drawPixel startX startY row b col = (s.drawPixel startX startY row b col).modSix := by
  unfold drawPixel
  split
  · dsimp only
    rw [← fbWrite_modSix, apply_ite modSix]
    rfl
  · rfl

theorem drawRow_modSix (startX startY : Byte) (row : Nat) :
    s.modSix.drawRow startX startY row = (s.drawRow startX startY row).modSix :=
  List.foldl_hom modSix fun t col => t.drawPixel_modSix startX startY row _ col

theorem drawSprite_modSix (startX startY : Byte) (n : Nat) :
    s.modSix.drawSprite startX startY n = (s.drawSprite startX startY n).modSix :=
  List.foldl_hom modSix fun t row => t.drawRow_modSix startX startY row

theorem loadFrom_modSix (ks : List Reg) : s.modSix.loadFrom ks = (s.loadFrom ks).modSix :=
  List.foldl_hom modSix fun _ _ => rfl

theorem saveFrom_modSix (ks : List Reg) : s.modSix.saveFrom ks = (s.saveFrom ks).modSix :=
  List.foldl_hom modSix fun _ _ => rfl

theorem restoreFrom_modSix (ks : List Reg) : s.modSix.restoreFrom ks = (s.restoreFrom ks).modSix :=
  List.foldl_hom modSix fun _ _ => rfl

end State

/-! ### The counter modulo 6: outcomes -/

/-- An error passes through the end of the step (R125). -/
theorem retire_raise (op : Word) (s : State) (k : ErrorKind) : retire op (s.raise k) = s.raise k := by
  cases k <;> rfl

/-- Outcomes that a counter kept modulo 6 does not tell apart: next states that differ by multiples of 6 in the
counter, the same error raised in the same state but for the counter, the same refusal (R130). -/
inductive AgreeModSix : Host.Outcome State Fault Refusal → Host.Outcome State Fault Refusal → Prop
  | next {t t' : State} (h : t.modSix = t'.modSix) : AgreeModSix (.next t) (.next t')
  | raise (s : State) (k : ErrorKind) : AgreeModSix (s.raise k) (s.modSix.raise k)
  | refused (r : Refusal) : AgreeModSix (.refused r) (.refused r)

namespace AgreeModSix

/-- A next state agrees with the same state whose counter is kept modulo 6. -/
theorem of_eq {t t' : State} (h : t' = t.modSix) : AgreeModSix (.next t) (.next t') := by
  subst h
  exact .next t.modSix_modSix.symm

/-- A test that the counter does not decide leads to outcomes that agree. -/
theorem ite {c : Prop} [Decidable c] {a b a' b' : Host.Outcome State Fault Refusal}
    (ha : AgreeModSix a a') (hb : AgreeModSix b b') :
    AgreeModSix (if c then a else b) (if c then a' else b') := by
  split
  · exact ha
  · exact hb

/-- Outcomes that agree still do at the end of the step: the tick goes by the residue, and an error does not
tick (R120, R125). -/
theorem retire {a a' : Host.Outcome State Fault Refusal} (h : AgreeModSix a a') (op : Word) :
    AgreeModSix (retire op a) (retire op a') := by
  cases h with
  | @next t t' h =>
    have htick : t.tick.modSix = t'.tick.modSix := by
      rw [← t.modSix_tick_modSix, ← t'.modSix_tick_modSix, h]
    exact .next (congrArg (State.answer · (.executed op)) htick)
  | raise s k => rw [retire_raise, retire_raise]; exact .raise s k
  | refused r => exact .refused r

/-- What a claim may say of outcomes that agree is the same. -/
theorem mapOutcome_eq {a a' : Host.Outcome State Fault Refusal} (h : AgreeModSix a a') :
    mapOutcome State.modSix a = mapOutcome State.modSix a' := by
  cases h with
  | next h => exact congrArg Host.Outcome.next h
  | raise s k =>
    cases k with
    | romNotLoaded =>
      exact congrArg (fun t : State => Host.Outcome.fault (ErrorKind.romNotLoaded, some t))
        (s.answer (.error .romNotLoaded)).modSix_modSix.symm
    | invalidOpcode | stackOverflow | stackUnderflow => rfl
  | refused r => rfl

end AgreeModSix

/-! ### The counter modulo 6: instructions and steps -/

/-- No instruction reads or writes the counter (R29). -/
theorem exec_agreeModSix (i : Instr) (s : State) : AgreeModSix (exec i s) (exec i s.modSix) := by
  cases i <;> simp only [exec]
  case ret => exact .ite (.raise s s.underflowKind) (.of_eq rfl)
  case call nnn =>
    have hpush := s.stackWrite_modSix s.sp s.pc
    exact .ite (.raise s .stackOverflow)
      (.of_eq (congrArg (fun t : State => { t with sp := s.sp + 1, pc := zext16 nnn }) hpush))
  case ldVKey => exact .ite (.of_eq rfl) (.of_eq rfl)
  case cls => exact .of_eq s.fbClear_modSix
  case drw => exact .of_eq ((s.setV regF 0).drawSprite_modSix _ _ _)
  case seImm | sneImm | seReg | sneReg | skp | sknp => exact .of_eq (s.skipIf_modSix _)
  case loadRegs => exact .of_eq (congrArg (State.setI · _) (s.loadFrom_modSix _))
  case saveFlags => exact .of_eq (s.saveFrom_modSix _)
  case restoreFlags => exact .of_eq (s.restoreFrom_modSix _)
  all_goals exact .of_eq rfl

/-- A word is decoded without the counter, and an invalid one raises its error (R125, R262). -/
theorem execute_agreeModSix (op : Word) (s : State) :
    AgreeModSix (execute op s) (execute op s.modSix) := by
  unfold execute
  cases decodeFetched op with
  | some i => exact exec_agreeModSix i s
  | none => exact .raise s .invalidOpcode

/-- Fetch and the dead-loop guard do not look at the counter (R123, R124). -/
theorem fetchExecute_agreeModSix (s : State) : AgreeModSix (fetchExecute s) (fetchExecute s.modSix) :=
  .ite (.of_eq rfl) ((execute_agreeModSix s.fetchWord s.advance).retire s.fetchWord)

/-- Nor do the refusal and the checks of a step (R121, R122, R270). -/
theorem step_agreeModSix (s : State) : AgreeModSix (step s) (step s.modSix) := by
  cases hf : s.fatalError with
  | some k =>
    rw [step_of_fatalError hf, step_of_fatalError (s := s.modSix) hf]
    exact .refused _
  | none =>
    rw [step_of_running hf, step_of_running (s := s.modSix) hf]
    exact .ite (.raise s .romNotLoaded) (.ite (fetchExecute_agreeModSix s) (.of_eq rfl))

/-- Settles O17: the counter decides nothing in a step but its tick, and a tick goes by the residue. -/
theorem counterModuloSixIsExact : Obligations.CounterModuloSixIsExact := by
  unfold Obligations.CounterModuloSixIsExact
  exact fun s => (step_agreeModSix s).mapOutcome_eq

end Sys2Proof.Machine
end

section
/-! PROOF. Control flow (spec/41_control_flow.md): the no-op, the jumps, the call and the return, and the
bytes of a stack slot. -/

namespace Sys2Proof

/-! ### The bytes of a word -/

theorem hiByte_toNat (w : Word) : (hiByte w).toNat = w.toNat / 256 := by
  simp only [hiByte, BitVec.extractLsb'_toNat, Nat.shiftRight_eq_div_pow]
  omega

theorem loByte_toNat (w : Word) : (loByte w).toNat = w.toNat % 256 := by
  simp only [loByte, BitVec.extractLsb'_toNat, Nat.shiftRight_zero]

namespace Machine

/-! ### The no-op -/

/-- Settles O18: the word 0 is dispatched as a no-op, so a step of it is the advance, the tick and the answer. -/
theorem nopOnlyPassesByAndTicks : Obligations.NopOnlyPassesByAndTicks := by
  unfold Obligations.NopOnlyPassesByAndTicks
  have hdecode : decode 0x0000#16 = .ok .nop := by decide
  refine ⟨hdecode, fun _ => rfl, fun s hd hw => ?_⟩
  rw [step_of_dispatches hd, hw, execute_of_decode hdecode]
  rfl

/-! ### The jumps -/

theorem zext16_toNat (nnn : Addr) : (zext16 nnn).toNat = nnn.toNat :=
  BitVec.toNat_setWidth_of_le (by decide)

/-- The target of `BNNN` is not reduced: a 12-bit address and a byte add up to less than 65536 (R144). -/
theorem zext16_add_byte_toNat (nnn : Addr) (b : Byte) :
    (zext16 nnn + b.setWidth 16).toNat = nnn.toNat + b.toNat := by
  have hnnn := nnn.isLt
  have hb := b.isLt
  rw [BitVec.toNat_add, zext16_toNat, BitVec.toNat_setWidth_of_le (by decide)]
  omega

/-- Loading PC changes nothing else (R23). -/
theorem State.onlyPcChanged_setPc (s : State) (a : Word) : OnlyPcChanged s (s.setPc a) :=
  ⟨rfl, fun _ => rfl⟩

/-- Settles O19: each jump loads PC, and neither target passes 65535. -/
theorem jumpsLoadPc : Obligations.JumpsLoadPc := by
  unfold Obligations.JumpsLoadPc
  exact fun nnn s =>
    ⟨⟨_, rfl, zext16_toNat nnn, s.onlyPcChanged_setPc _⟩,
     ⟨_, rfl, zext16_add_byte_toNat nnn (s.getV 0), s.onlyPcChanged_setPc _⟩⟩

/-! ### The return -/

theorem exec_ret_of_empty {s : State} (h : s.sp = 0) : exec .ret s = s.raise s.underflowKind := if_pos h

theorem exec_ret_of_pos {s : State} (h : 0 < s.sp) :
    exec .ret s = .next { s with sp := s.sp - 1, pc := s.stackRead (s.sp - 1) } := if_neg h.ne'

/-- Settles O21: the test on SP, and on an empty stack the kind the parameter chooses. -/
theorem returnPopsTheReturnAddress : Obligations.ReturnPopsTheReturnAddress := by
  unfold Obligations.ReturnPopsTheReturnAddress
  refine fun s => ⟨fun hsp hc => ?_, fun hsp hc => ?_, fun hsp => ?_⟩
  · have hk : s.underflowKind = .stackUnderflow := by simp [State.underflowKind, hc]
    rw [exec_ret_of_empty hsp, hk]
    exact ⟨_, rfl⟩
  · have hk : s.underflowKind = .stackOverflow := by simp [State.underflowKind, hc]
    rw [exec_ret_of_empty hsp, hk]
    exact ⟨_, rfl⟩
  · exact ⟨_, exec_ret_of_pos hsp, rfl, rfl, rfl, fun _ => rfl⟩

/-! ### The slot a stack write fills -/

namespace State

variable (s : State)

/-- Two bytes stored side by side read back as they were stored (R71). -/
theorem readByte_writeBytes_pair (a : Nat) (b c : Byte) (h : s.memory.wf = true) :
    (s.writeBytes a [b, c]).readByte a = b ∧ (s.writeBytes a [b, c]).readByte (a + 1) = c :=
  have hbyte := s.readByte_writeBytes_at a [b, c] h (by simp [Config.memSize])
  ⟨hbyte 0 (by simp), hbyte 1 (by simp)⟩

/-- With the order little, a slot holds the low byte first (R65, R66). -/
theorem readByte_stackWrite_little (n : Nat) (w : Word) (h : s.memory.wf = true)
    (ho : s.params.stackByteOrder = .little) :
    (s.stackWrite n w).readByte (slotAddr n) = loByte w ∧
    (s.stackWrite n w).readByte (slotAddr n + 1) = hiByte w := by
  simp only [stackWrite, ho]
  exact s.readByte_writeBytes_pair (slotAddr n) (loByte w) (hiByte w) h

/-- With the order big, a slot holds the high byte first (R65, R66). -/
theorem readByte_stackWrite_big (n : Nat) (w : Word) (h : s.memory.wf = true)
    (ho : s.params.stackByteOrder = .big) :
    (s.stackWrite n w).readByte (slotAddr n) = hiByte w ∧
    (s.stackWrite n w).readByte (slotAddr n + 1) = loByte w := by
  simp only [stackWrite, ho]
  exact s.readByte_writeBytes_pair (slotAddr n) (hiByte w) (loByte w) h

/-- The 48 slots end below the framebuffer, so neither byte of one wraps and a stack write reaches just these
two (R66). -/
theorem sameMemoryOutside_stackWrite {n : Nat} (w : Word) (h : s.memory.wf = true) (hn : n < 48) :
    SameMemoryOutside (fun c => c = slotAddr n ∨ c = slotAddr n + 1) s (s.stackWrite n w) := by
  intro a ha
  obtain ⟨h₀, h₁⟩ := not_or.mp ha
  have hlt : slotAddr n + 1 < Config.memSize := by
    simp only [slotAddr, Config.stackBase, Config.memSize]
    omega
  have hcell₀ : cellOf (slotAddr n) = slotAddr n := Nat.mod_eq_of_lt (Nat.lt_of_succ_lt hlt)
  have hcell₁ : cellOf (slotAddr n + 1) = slotAddr n + 1 := Nat.mod_eq_of_lt hlt
  exact s.stackWrite_outside n w h a (by rwa [hcell₀]) (by rwa [hcell₁])

end State

/-! ### The call -/

theorem exec_call_of_full (nnn : Addr) {s : State} (h : 48 ≤ s.sp) :
    exec (.call nnn) s = s.raise .stackOverflow := if_pos h

theorem exec_call_of_lt (nnn : Addr) {s : State} (h : s.sp < 48) :
    exec (.call nnn) s = .next { s.stackWrite s.sp s.pc with sp := s.sp + 1, pc := zext16 nnn } :=
  if_neg (Nat.not_le.mpr h)

/-- Settles O20: the test on SP, then what a write of slot SP reads as, leaves alone and stores. -/
theorem callPushesTheReturnAddress : Obligations.CallPushesTheReturnAddress := by
  unfold Obligations.CallPushesTheReturnAddress
  refine fun nnn s hwf => ⟨fun hsp => ⟨_, exec_call_of_full nnn hsp⟩, fun hsp =>
    ⟨_, exec_call_of_lt nnn hsp, s.stackRead_stackWrite s.sp s.pc hwf, rfl, zext16_toNat nnn, ?frame,
      s.sameMemoryOutside_stackWrite s.pc hwf hsp, fun ho => ?little, fun ho => ?big⟩⟩
  case frame => rw [s.stackWrite_eq]
  case little =>
    obtain ⟨hfirst, hsecond⟩ := s.readByte_stackWrite_little s.sp s.pc hwf ho
    exact ⟨(congrArg BitVec.toNat hfirst).trans (loByte_toNat s.pc),
      (congrArg BitVec.toNat hsecond).trans (hiByte_toNat s.pc)⟩
  case big =>
    obtain ⟨hfirst, hsecond⟩ := s.readByte_stackWrite_big s.sp s.pc hwf ho
    exact ⟨(congrArg BitVec.toNat hfirst).trans (hiByte_toNat s.pc),
      (congrArg BitVec.toNat hsecond).trans (loByte_toNat s.pc)⟩

/-- Settles O22: the return reads back the slot the call has just written, and writes no memory itself. -/
theorem returnUndoesCall : Obligations.ReturnUndoesCall := by
  unfold Obligations.ReturnUndoesCall
  intro nnn s hwf hsp
  have hpop := s.stackRead_stackWrite s.sp s.pc hwf
  refine ⟨_, _, exec_call_of_lt nnn hsp, exec_ret_of_pos (Nat.succ_pos s.sp), hpop, rfl, ?frame,
    s.sameMemoryOutside_stackWrite s.pc hwf hsp⟩
  case frame =>
    change { s.stackWrite s.sp s.pc with sp := s.sp, pc := (s.stackWrite s.sp s.pc).stackRead s.sp } =
      { s with memory := (s.stackWrite s.sp s.pc).memory }
    rw [hpop, s.stackWrite_eq]

end Machine
end Sys2Proof
end

section
/-! PROOF. The register skips (spec/42_skips.md): what a skip does to PC, and the words of families 5 and 9 that
are no skip. -/

namespace Sys2Proof

/-! ### The words that are no skip -/

/-- Where the low nibble must be 0, any other is rejected (R96). -/
theorem decodeNibbleZero_of_ne (i : Instr) {op : Word} (h : fieldN op ≠ 0#4) :
    decodeNibbleZero i op = .error (.invalidOpcode op) := if_neg h

/-- Families 5 and 9 have an instruction only for low nibble 0 (R152, R153). -/
theorem decode_of_lowNibble_ne_zero {f n : BitVec 4} (x y : Reg) (hf : f = 0x5#4 ∨ f = 0x9#4) (hn : n ≠ 0) :
    decode (f ++ regBits x ++ regBits y ++ n) =
      .error (.invalidOpcode (f ++ regBits x ++ regBits y ++ n)) := by
  have hfield : fieldN (f ++ regBits x ++ regBits y ++ n) ≠ 0#4 := by rwa [fieldN_formatRR]
  rcases hf with rfl | rfl
  · simp [decode, decodeNibbleZero_of_ne _ hfield]
  · simp [decode, decodeNibbleZero_of_ne _ hfield]

namespace Machine

/-- Such a word is an InvalidOpcode fault when executed (R262). -/
theorem execute_of_lowNibble_ne_zero {f n : BitVec 4} (x y : Reg) (s : State) (hf : f = 0x5#4 ∨ f = 0x9#4)
    (hn : n ≠ 0) : ∃ t, execute (f ++ regBits x ++ regBits y ++ n) s = .fault (.invalidOpcode t) :=
  ⟨_, execute_of_reject (decode_of_lowNibble_ne_zero x y hf hn) s⟩

/-! ### What a skip does -/

theorem State.onlyPcChanged_skipIf (s : State) (c : Bool) : OnlyPcChanged s (s.skipIf c) :=
  ⟨s.skipIf_eq c, s.readByte_skipIf c⟩

/-- A skip taken adds 2 to PC modulo 65536, and one not taken leaves it (R35, R154). -/
theorem State.skipIf_pc_toNat (s : State) (c : Bool) :
    (s.skipIf c).pc.toNat = if c then (s.pc.toNat + 2) % 65536 else s.pc.toNat := by
  cases c <;> rfl

/-- An instruction that skips on a test for `P` skips exactly when `P` holds (R150, R152). -/
theorem exec_skips_when {i : Instr} {s : State} {c : Bool} {P : Prop} [Decidable P]
    (h : exec i s = .next (s.skipIf c)) (hc : c = true ↔ P) :
    ∃ t, exec i s = .next t ∧ OnlyPcChanged s t ∧
      t.pc.toNat = if P then (s.pc.toNat + 2) % 65536 else s.pc.toNat :=
  ⟨_, h, s.onlyPcChanged_skipIf c, (s.skipIf_pc_toNat c).trans (if_congr hc rfl rfl)⟩

/-- An instruction that skips on a test for `¬ P` skips exactly when `P` fails (R151, R153). -/
theorem exec_skips_unless {i : Instr} {s : State} {c : Bool} {P : Prop} [Decidable P]
    (h : exec i s = .next (s.skipIf c)) (hc : c = true ↔ ¬ P) :
    ∃ t, exec i s = .next t ∧ OnlyPcChanged s t ∧
      t.pc.toNat = if P then s.pc.toNat else (s.pc.toNat + 2) % 65536 := by
  obtain ⟨t, ht, hframe, hpc⟩ := exec_skips_when h hc
  exact ⟨t, ht, hframe, hpc.trans (ite_not ..)⟩

/-! ### The four register skips -/

/-- Settles O23: each word decodes as its instruction was encoded, and each comparison decides its skip. -/
theorem registerSkipsCompare : Obligations.RegisterSkipsCompare := by
  unfold Obligations.RegisterSkipsCompare
  intro x y nn s
  refine ⟨⟨?seImm, exec_skips_when rfl beq_iff_eq⟩, ⟨?sneImm, exec_skips_unless rfl bne_iff_ne⟩,
    ⟨?seReg, exec_skips_when rfl beq_iff_eq⟩, ⟨?sneReg, exec_skips_unless rfl bne_iff_ne⟩,
    fun n hn => ⟨?five, ?nine⟩⟩
  case seImm => exact decode_encode (i := .seImm x nn) rfl
  case sneImm => exact decode_encode (i := .sneImm x nn) rfl
  case seReg => exact decode_encode (i := .seReg x y) rfl
  case sneReg => exact decode_encode (i := .sneReg x y) rfl
  case five => exact execute_of_lowNibble_ne_zero x y s (.inl rfl) hn
  case nine => exact execute_of_lowNibble_ne_zero x y s (.inr rfl) hn

end Machine
end Sys2Proof
end

section
/-! PROOF. Load immediate, add immediate and random (spec/43_immediate_random.md): what a write of one V
register leaves unchanged, the value of the wrapped sum, and the bits a mask can leave set. -/

namespace Sys2Proof.Machine

/-! ### A write of one register -/

/-- A write of V[X] has the frame of an instruction with the one destination X (R21). -/
theorem State.onlyVChanged_setV (s : State) (x : Reg) (b : Byte) : OnlyVChanged [x] s (s.setV x b) :=
  ⟨rfl, fun _ hr => s.getV_setV_ne b (List.ne_of_not_mem_cons hr), s.readByte_setV x b⟩

/-! ### Load and add -/

theorem sumByte_toNat (a b : Byte) : (sumByte a b).toNat = (a.toNat + b.toNat) % 256 :=
  BitVec.toNat_ofNat ..

/-- Settles O27: both instructions write V[X] alone, one with NN and one with the wrapped sum. -/
theorem immediateLoadAndAdd : Obligations.ImmediateLoadAndAdd := by
  unfold Obligations.ImmediateLoadAndAdd
  intro x nn s
  refine ⟨⟨decode_encode (i := .ldImm x nn) rfl, _, rfl, s.getV_setV_self x nn, s.onlyVChanged_setV x nn⟩,
    ⟨decode_encode (i := .addImm x nn) rfl, _, rfl, ?sum, s.onlyVChanged_setV x _⟩⟩
  case sum => rw [State.getV_setV_self, sumByte_toNat]

/-! ### Random -/

/-- A masked byte has no bit outside its mask (R162). -/
theorem and_mask_and_not_mask (a mask : Byte) : a &&& mask &&& ~~~mask = 0 := by
  rw [BitVec.and_assoc, BitVec.and_not_self]
  exact BitVec.and_zero

/-- Settles O28: the masked draw is written as any byte would be, so nothing of the draw is used. -/
theorem randomByteIsMasked : Obligations.RandomByteIsMasked := by
  unfold Obligations.RandomByteIsMasked
  intro x nn s
  have hdraw := s.getV_setV_self x (Config.randomByte s.draws &&& nn)
  obtain ⟨-, hregs, hmem⟩ := s.onlyVChanged_setV x (Config.randomByte s.draws &&& nn)
  refine ⟨_, rfl, hdraw, ?mask, rfl, rfl, fun r hr => hregs r (List.mem_singleton.not.mpr hr), hmem⟩
  case mask => exact (congrArg (· &&& ~~~nn) hdraw).trans (and_mask_and_not_mask _ nn)

end Sys2Proof.Machine
end

section
/-! PROOF. Register arithmetic and logic (spec/44_alu.md): the frame and the result of one register write and of
two, the values of the sums, differences and flags, and the order in which a shift writes and reads. -/

namespace Sys2Proof.Machine

/-! ### The values of the results and of the flags -/

theorem flagByte_decide_toNat (P : Prop) [Decidable P] :
    (flagByte (decide P)).toNat = if P then 1 else 0 := by
  by_cases h : P <;> simp [flagByte, h]

/-- Taken modulo 256, a difference may have 256 added to it first (R176). -/
theorem diffByte_toNat (a b : Byte) : (diffByte a b).toNat = (a.toNat + 256 - b.toNat) % 256 := by
  have hb := b.isLt
  rw [diffByte, diffOf, BitVec.toNat_ofInt]
  omega

theorem carryFlag_toNat (a b : Byte) :
    (carryFlag a b).toNat = if a.toNat + b.toNat > 255 then 1 else 0 :=
  flagByte_decide_toNat _

/-- There is no borrow exactly when the subtrahend is no larger, equality included (R176). -/
theorem noBorrowFlag_toNat (a b : Byte) : (noBorrowFlag a b).toNat = if b.toNat ≤ a.toNat then 1 else 0 := by
  have hsign : diffOf a b ≥ 0 ↔ b.toNat ≤ a.toNat := by
    unfold diffOf
    omega
  exact (flagByte_decide_toNat _).trans (if_congr hsign rfl rfl)

theorem lowBitFlag_toNat (a : Byte) : (lowBitFlag a).toNat = a.toNat % 2 := by
  rw [lowBitFlag, BitVec.toNat_and]
  exact Nat.and_one_is_mod _

theorem shiftRight_one_toNat (a : Byte) : (a >>> 1).toNat = a.toNat / 2 := by
  rw [BitVec.toNat_ushiftRight, Nat.shiftRight_one]

theorem shiftLeft_one_toNat (a : Byte) : (a <<< 1).toNat = a.toNat * 2 % 256 := by
  rw [BitVec.toNat_shiftLeft, Nat.shiftLeft_eq]

/-- Bit 7 is what is left of a byte when the seven bits below it are shifted out (R179). -/
theorem highBitFlag_toNat (a : Byte) : (highBitFlag a).toNat = a.toNat / 128 := by
  have ha := a.isLt
  calc (highBitFlag a).toNat = (a >>> 7).toNat % 2 := lowBitFlag_toNat (a >>> 7)
    _ = a.toNat / 128 := by
      rw [BitVec.toNat_ushiftRight, Nat.shiftRight_eq_div_pow]
      omega

/-! ### The frame of register writes -/

theorem OnlyVChanged.refl (rs : List Reg) (s : State) : OnlyVChanged rs s s :=
  ⟨rfl, fun _ _ => rfl, fun _ => rfl⟩

/-- One more write to a register the frame names stays inside the frame (R21). -/
theorem OnlyVChanged.setV {rs : List Reg} {s t : State} (h : OnlyVChanged rs s t) {r : Reg} (hr : r ∈ rs)
    (b : Byte) : OnlyVChanged rs s (t.setV r b) := by
  obtain ⟨hfields, hregs, hmem⟩ := h
  refine ⟨congrArg (State.setV · r b) hfields, fun q hq => ?regs, hmem⟩
  case regs => rw [t.getV_setV_ne b (ne_of_mem_of_not_mem hr hq).symm, hregs q hq]

/-! ### Copy and logic -/

/-- Settles O29: each of the four writes V[X] alone, and the bits of the result are those of the operation. -/
theorem logicWritesOnlyTheDestination : Obligations.LogicWritesOnlyTheDestination := by
  unfold Obligations.LogicWritesOnlyTheDestination
  intro x y s
  refine ⟨⟨_, rfl, s.getV_setV_self x _, s.onlyVChanged_setV x _⟩,
    ⟨_, rfl, s.onlyVChanged_setV x _, fun k _ => ?or⟩, ⟨_, rfl, s.onlyVChanged_setV x _, fun k _ => ?and⟩,
    ⟨_, rfl, s.onlyVChanged_setV x _, fun k _ => ?xor⟩⟩
  case or => rw [State.getV_setV_self, BitVec.getLsbD_or]
  case and => rw [State.getV_setV_self, BitVec.getLsbD_and]
  case xor => rw [State.getV_setV_self, BitVec.getLsbD_xor]

/-! ### Addition and subtraction -/

/-- An instruction that writes its result and then its flag changes V[X] and VF alone, and the flag remains
when X is F (R170, R175). -/
theorem exec_result_then_flag {i : Instr} {s : State} {x : Reg} {b f : Byte} {n m : Nat}
    (h : exec i s = .next (s.setResultThenFlag x b f)) (hb : b.toNat = n) (hf : f.toNat = m) :
    ∃ t, exec i s = .next t ∧ OnlyVChanged [x, regF] s t ∧ (x ≠ regF → (t.getV x).toNat = n) ∧
      (t.getV regF).toNat = m := by
  refine ⟨_, h, ((OnlyVChanged.refl _ s).setV (by simp) b).setV (by simp) f, fun hx => ?result, ?flag⟩
  case result => rw [s.getV_setResultThenFlag, if_neg hx, if_pos rfl, hb]
  case flag => rw [s.getV_setResultThenFlag, if_pos rfl, hf]

/-- Settles O30: the wrapped sum is written first and the carry over it. -/
theorem addSetsCarry : Obligations.AddSetsCarry := by
  unfold Obligations.AddSetsCarry
  exact fun x y s => ⟨decode_encode (i := .addReg x y) rfl,
    exec_result_then_flag rfl (sumByte_toNat _ _) (carryFlag_toNat _ _)⟩

/-- Settles O31: both subtractions write the wrapped difference first and the no-borrow flag over it, with the
operands exchanged. -/
theorem subtractSetsNoBorrow : Obligations.SubtractSetsNoBorrow := by
  unfold Obligations.SubtractSetsNoBorrow
  exact fun x y s =>
    ⟨⟨decode_encode (i := .subReg x y) rfl,
      exec_result_then_flag rfl (diffByte_toNat _ _) (noBorrowFlag_toNat _ _)⟩,
     ⟨decode_encode (i := .subnReg x y) rfl,
      exec_result_then_flag rfl (diffByte_toNat _ _) (noBorrowFlag_toNat _ _)⟩⟩

/-! ### The shifts -/

/-- An instruction that writes its flag and then shifts what V[Y] holds after it: the flag remains unless X is
F, and the flag is what is shifted when Y is F (R170 (c)). -/
theorem exec_flag_then_shift {i : Instr} {s : State} {x y : Reg} {f : Byte} {shift : Byte → Byte}
    (h : exec i s = .next ((s.setV regF f).setV x (shift ((s.setV regF f).getV y)))) :
    ∃ t, exec i s = .next t ∧ OnlyVChanged [x, regF] s t ∧ (x ≠ regF → t.getV regF = f) ∧
      (y ≠ regF → t.getV x = shift (s.getV y)) ∧ (y = regF → t.getV x = shift f) := by
  refine ⟨_, h, ((OnlyVChanged.refl _ s).setV (by simp) f).setV (by simp) _, fun hx => ?flag,
    fun hy => ?value, fun hy => ?shiftedFlag⟩
  case flag => rw [State.getV_setV_ne _ _ hx.symm, State.getV_setV_self]
  case value => rw [State.getV_setV_self, State.getV_setV_ne _ _ hy]
  case shiftedFlag => rw [State.getV_setV_self, hy, State.getV_setV_self]

/-- Settles O32: bit 0, shifted right, leaves 0; bit 7, shifted left, does not pass 255. -/
theorem shiftsTakeFlagFromXAndValueFromY : Obligations.ShiftsTakeFlagFromXAndValueFromY := by
  unfold Obligations.ShiftsTakeFlagFromXAndValueFromY
  refine fun x y s => ⟨?right, ?left⟩
  case right =>
    obtain ⟨t, ht, hframe, hflag, hvalue, hself⟩ :=
      exec_flag_then_shift (i := .shrReg x y) (s := s) (shift := (· >>> 1)) rfl
    refine ⟨t, ht, hframe, fun hx => ?_, fun hy => ?_, fun hy => ?_⟩
    · rw [hflag hx, lowBitFlag_toNat]
    · rw [hvalue hy, shiftRight_one_toNat]
    · rw [hself hy, shiftRight_one_toNat, lowBitFlag_toNat]
      omega
  case left =>
    obtain ⟨t, ht, hframe, hflag, hvalue, hself⟩ :=
      exec_flag_then_shift (i := .shlReg x y) (s := s) (shift := (· <<< 1)) rfl
    refine ⟨t, ht, hframe, fun hx => ?_, fun hy => ?_, fun hy => ?_⟩
    · rw [hflag hx, highBitFlag_toNat]
    · rw [hvalue hy, shiftLeft_one_toNat]
    · have hbit := (s.getV x).isLt
      rw [hself hy, shiftLeft_one_toNat, highBitFlag_toNat]
      omega

end Sys2Proof.Machine
end

section
/-! PROOF. The address register and memory (spec/45_index_memory.md): the frame of a write of I, the cells a run
of stores from I reaches and what they read as, the decimal digits, and the advance of I. -/

namespace Sys2Proof.Machine

/-! ### The runs of cells from I -/

/-- A run of bytes stored from a 16-bit base upward reaches just the cells counted from that base (R62). -/
theorem State.sameMemoryOutside_writeBytes (s : State) (base : Word) (bs : List Byte)
    (h : s.memory.wf = true) :
    SameMemoryOutside (cellsFrom base bs.length) s (s.writeBytes (byteAddr base 0) bs) :=
  fun a ha => s.readByte_writeBytes_outside _ a bs h fun k hk hcell => ha ⟨k, hk, hcell⟩

/-- After `FX55` or `FX65` I stands past the X+1 cells, modulo 65536 (R194, R195). -/
theorem advancedI_toNat (i : Word) (x : Reg) :
    (i + BitVec.ofNat 16 (x.val + 1)).toNat = (i.toNat + x.val + 1) % 65536 := by
  rw [BitVec.toNat_add, BitVec.toNat_ofNat]
  omega

/-! ### The decimal digits -/

/-- Settles O34: each of the three cells reads as the digit stored there, and a digit fits in its byte. -/
theorem bcdDigitsAreStored : Obligations.BcdDigitsAreStored := by
  unfold Obligations.BcdDigitsAreStored
  intro x s hwf
  have hread : ∀ k (hk : k < 3), (s.writeBytes (byteAddr s.i 0) (bcdDigits (s.getV x))).readByte
      (byteAddr s.i k) = (bcdDigits (s.getV x))[k]'hk :=
    s.readByte_writeBytes_at (byteAddr s.i 0) (bcdDigits (s.getV x)) hwf (show 3 ≤ 4096 by decide)
  have hdigit : ∀ {b : Byte} {n : Nat}, b = BitVec.ofNat 8 n → n < 256 → b.toNat = n := by
    rintro b n rfl hn
    rw [BitVec.toNat_ofNat, Nat.mod_eq_of_lt hn]
  have hv := (s.getV x).isLt
  refine ⟨_, rfl, rfl, ?hundreds, ?tens, ?ones,
    s.sameMemoryOutside_writeBytes s.i (bcdDigits (s.getV x)) hwf⟩
  case hundreds => exact hdigit (hread 0 (by decide)) (by omega)
  case tens => exact hdigit (hread 1 (by decide)) (by omega)
  case ones => exact hdigit (hread 2 (by decide)) (by omega)

/-! ### Storing and loading registers -/

/-- Settles O35: what the cells read is `readByte_of_exec_storeRegs`, and the run of stores has X+1 bytes. -/
theorem registersAreStoredFromI : Obligations.RegistersAreStoredFromI := by
  unfold Obligations.RegistersAreStoredFromI
  intro x s hwf
  have houtside := s.sameMemoryOutside_writeBytes s.i ((regRange x).map s.getV) hwf
  rw [List.length_map, length_regRange] at houtside
  exact ⟨_, rfl, rfl, fun _ hk => readByte_of_exec_storeRegs hwf rfl hk, advancedI_toNat s.i x, houtside⟩

/-- Settles O36: the loop writes the registers up to X, from bytes it does not change, and no other. -/
theorem registersAreLoadedFromI : Obligations.RegistersAreLoadedFromI := by
  unfold Obligations.RegistersAreLoadedFromI
  intro x s
  refine ⟨_, rfl, ?frame, fun k hk => ?loaded, fun k hk => ?kept, advancedI_toNat s.i x, fun a => ?memory⟩
  case frame => rw [State.setI, s.loadFrom_eq]
  case loaded => exact (s.getV_loadFrom _ k).trans (if_pos ((mem_regRange x k).mpr hk))
  case kept => exact (s.getV_loadFrom _ k).trans (if_neg ((mem_regRange x k).not.mpr (not_le_of_gt hk)))
  case memory => rw [State.setI, s.loadFrom_eq]; rfl

/-! ### The loads of I -/

/-- A write of I touches no other field and no byte (R190). -/
theorem State.onlyIChanged_setI (s : State) (a : Word) : OnlyIChanged s (s.setI a) := ⟨rfl, fun _ => rfl⟩

/-- The widened byte keeps its value, so the sum is the one of the numbers, modulo 65536 (R191). -/
theorem add_setWidth_toNat (i : Word) (b : Byte) :
    (i + b.setWidth 16).toNat = (i.toNat + b.toNat) % 65536 := by
  rw [BitVec.toNat_add, BitVec.toNat_setWidth_of_le (by decide)]

/-- Five times a byte is below 65536, so no glyph address wraps (R192). -/
theorem glyphAddr_toNat (b : Byte) : (glyphAddr b).toNat = b.toNat * 5 := by
  have hb := b.isLt
  rw [glyphAddr, BitVec.toNat_ofNat]
  omega

/-- Settles O33: each of the three is one write of I, with the value `zext16_toNat`, `add_setWidth_toNat` or
`glyphAddr_toNat` gives. -/
theorem addressRegisterLoads : Obligations.AddressRegisterLoads := by
  unfold Obligations.AddressRegisterLoads
  exact fun x nnn s =>
    ⟨⟨_, rfl, zext16_toNat nnn, s.onlyIChanged_setI _⟩,
     ⟨_, rfl, add_setWidth_toNat s.i (s.getV x), s.onlyIChanged_setI _⟩,
     ⟨_, rfl, glyphAddr_toNat (s.getV x), s.onlyIChanged_setI _⟩⟩

end Sys2Proof.Machine
end

section
/-! PROOF. The display (spec/46_display.md): the cleared picture, what a sprite leaves alone, and the pixels a
whole sprite toggles and the collision it reports, both by induction over its rows. -/

namespace Sys2Proof.Machine

/-! ### Clearing -/

namespace State

variable (s : State)

/-- Attached, the picture is the cells from 0xF00 up (R68). -/
theorem fbRead_attached (fi : Nat) (hd : s.fbDetached = false) :
    s.fbRead fi = s.readByte (Config.fbBase + fi) := if_neg (by simp [hd])

/-- A zero byte of the picture holds dark pixels only (R67). -/
theorem pixel_of_fbRead_eq_zero {px py : Nat} (h : s.fbRead (pixelByte px py) = 0) :
    s.pixel px py = false := by
  simp [pixel, h, pixelCollides]

/-- Attached, clearing is a run of 256 zero bytes from 0xF00 up, and no cell below is reached (R200). -/
theorem sameMemoryOutside_fbClear (hw : s.memory.wf = true) (hd : s.fbDetached = false) :
    SameMemoryOutside (fun c => 0xF00 ≤ c) s s.fbClear := by
  intro a ha
  have hclear : s.fbClear = s.writeBytes Config.fbBase (zeroBytes Config.fbSize) := if_neg (by simp [hd])
  rw [hclear]
  refine s.readByte_writeBytes_outside _ a _ hw fun k hk => ?_
  rw [length_zeroBytes] at hk
  simp only [cellOf, Config.memSize, Config.fbBase, Config.fbSize] at *
  omega

end State

/-- Settles O38: every byte of the cleared picture reads 0, and attached those bytes are the cells. -/
theorem clearScreenDarkensEveryPixel : Obligations.ClearScreenDarkensEveryPixel := by
  unfold Obligations.ClearScreenDarkensEveryPixel
  intro s hwf
  have hframe := s.fbClear_frame
  have hzero (fi : Nat) (hfi : fi < 256) : s.fbClear.fbRead fi = 0 := s.fbRead_fbClear hwf fi hfi
  refine ⟨s.fbClear, rfl, ?fields, hzero, fun px py hx hy => ?dark, fun hd => ?attached, fun hd => ?detached⟩
  case fields => simpa only [State.fbClear_v] using hframe.eq
  case dark => exact State.pixel_of_fbRead_eq_zero _ (hzero _ (State.pixelByte_lt hx hy))
  case attached =>
    refine ⟨hframe.attached hd, s.sameMemoryOutside_fbClear hwf hd, fun c hlo hhi => ?_⟩
    have hc : Config.fbBase + (c - 0xF00) = c := Nat.add_sub_cancel' hlo
    rw [← hc, ← State.fbRead_attached _ _ (hframe.fbDetached.trans hd)]
    exact hzero _ (by omega)
  case detached => exact fun a => congrArg (·.read a) (hframe.detached hd)

/-! ### What a sprite leaves alone -/

namespace State

variable (s : State)

/-- A framebuffer write changes no other byte of the detached buffer (R68). -/
theorem getElem?_dfb_fbWrite_ne {fi fj : Nat} (b : Byte) (h : fj ≠ fi) :
    (s.fbWrite fi b).dfb[fj]? = s.dfb[fj]? := by
  cases hd : s.fbDetached with
  | false => rw [s.fbWrite_attached fi b hd, writeByte_dfb]
  | true => rw [s.fbWrite_detached fi b hd, Vector.getElem?_setIfInBounds_ne h.symm]

/-- One column writes no byte of the detached buffer but the one under its pixel. -/
theorem getElem?_dfb_drawPixel_ne {startX startY : Byte} {row col fi : Nat} (b : Byte)
    (h : fi ≠ pixelByte (wrapX startX col) (wrapY startY row)) :
    (s.drawPixel startX startY row b col).dfb[fi]? = s.dfb[fi]? := by
  unfold drawPixel
  split
  · dsimp only
    split <;> exact getElem?_dfb_fbWrite_ne _ _ h
  · rfl

/-- A sprite writes no byte of the detached buffer but those under its pixels (R78). -/
theorem getElem?_dfb_drawSprite_ne {startX startY : Byte} {n fi : Nat}
    (h : ∀ row col, row < n → col < 8 → fi ≠ pixelByte (wrapX startX col) (wrapY startY row)) :
    (s.drawSprite startX startY n).dfb[fi]? = s.dfb[fi]? := by
  refine List.foldlRecOn (motive := fun t : State => t.dfb[fi]? = s.dfb[fi]?) _ _ rfl
    fun t ht row hrow => ?_
  refine List.foldlRecOn (motive := fun u : State => u.dfb[fi]? = s.dfb[fi]?) _ _ ht
    fun u hu col hcol => ?_
  rw [u.getElem?_dfb_drawPixel_ne _ (h row col (List.mem_range.1 hrow) (List.mem_range.1 hcol)), hu]

end State

/-- `DXYN` draws from the cleared flag, at the coordinates of before (R202 (c)). -/
theorem exec_drw (x y : Reg) (n : Nat) (s : State) :
    exec (.drw x y n) s = .next ((s.setV regF 0).drawSprite (s.getV x) (s.getV y) n) := rfl

theorem exec_drw_frame {x y : Reg} {n : Nat} {s t : State} (h : exec (.drw x y n) s = .next t) :
    State.DrawFrame s t := by
  cases h
  exact (State.DrawFrame.setV_regF s 0).trans (State.drawSprite_frame _ _ _ n)

/-- `DXYN` leaves VF 0 or 1 (R201). -/
theorem exec_drw_regF_cases {x y : Reg} {n : Nat} {s t : State} (h : exec (.drw x y n) s = .next t) :
    t.getV regF = 0 ∨ t.getV regF = 1 := by
  cases h
  have hflag := (s.setV regF 0).drawSprite_regF (s.getV x) (s.getV y) n
  rw [State.getV_setV_self] at hflag
  exact hflag.symm

/-- Settles O39: the draw frame, the cells `drawSprite_outside` leaves alone and, detached, the bytes of the
detached buffer. -/
theorem drawChangesOnlyTheFlagAndTheSpritesPlace :
    Obligations.DrawChangesOnlyTheFlagAndTheSpritesPlace := by
  unfold Obligations.DrawChangesOnlyTheFlagAndTheSpritesPlace
  intro x y n s hwf
  have hframe := exec_drw_frame (exec_drw x y n s)
  refine ⟨_, exec_drw x y n s, hframe.eq, hframe.regs, exec_drw_regF_cases (exec_drw x y n s),
    fun hd => ⟨hframe.attached hd, fun a ha => ?cells⟩,
    fun hd => ⟨fun a => congrArg (·.read a) (hframe.detached hd), fun fi _ hfi => ?bytes⟩, ?noRows⟩
  case cells =>
    exact (s.setV regF 0).drawSprite_outside _ _ n hwf a
      fun row col hrow hcol hcell => ha ⟨row, col, hrow, hcol, hcell⟩
  case bytes =>
    exact (s.setV regF 0).getElem?_dfb_drawSprite_ne
      fun row col hrow hcol hbyte => hfi ⟨row, col, hrow, hcol, congrArg (Config.fbBase + ·) hbyte⟩
  case noRows =>
    rintro rfl
    exact ⟨s.getV_setV_self regF 0, fun _ => rfl, rfl⟩

/-! ### The rows of a sprite -/

/-- Whether one of the first `n` rows of a sprite at these coordinates has a set pixel at (px, py), by the
sprite bytes this state holds. -/
def rowsLight (s : State) (startX startY : Byte) (n px py : Nat) : Prop :=
  ∃ row, row < n ∧ rowLights s startX startY row px py

/-- The sprite that `DXYN` draws is its rows, at the coordinates in V[X] and V[Y]. -/
theorem spriteLights_iff_rowsLight {s : State} {x y : Reg} {n px py : Nat} :
    spriteLights s x y n px py ↔ rowsLight s (s.getV x) (s.getV y) n px py :=
  ⟨fun ⟨row, col, hrow, h⟩ => ⟨row, hrow, col, h⟩, fun ⟨row, hrow, col, h⟩ => ⟨row, col, hrow, h⟩⟩

section

variable {s t : State} {startX startY : Byte} {n row px py : Nat}

theorem not_rowsLight_zero : ¬ rowsLight s startX startY 0 px py :=
  fun ⟨_, hrow, _⟩ => Nat.not_lt_zero _ hrow

theorem rowsLight_succ : rowsLight s startX startY (n + 1) px py ↔
    rowsLight s startX startY n px py ∨ rowLights s startX startY n px py := by
  simp only [rowsLight, Nat.lt_succ_iff_lt_or_eq, or_and_right, exists_or, exists_eq_left]

/-- Up to the height of the screen no two rows of a sprite wrap to the same place. -/
theorem not_rowsLight_of_rowLights (hn : n < 32) (h : rowLights s startX startY n px py) :
    ¬ rowsLight s startX startY n px py := by
  rintro ⟨row, hrow, _, _, _, hy, _⟩
  obtain ⟨_, _, _, hy', _⟩ := h
  exact hrow.ne (wrapY_inj startY (hrow.trans hn) hn (hy.trans hy'.symm))

/-- A row lights by the one byte of it, at the address counted from I. -/
theorem rowLights_congr (hi : t.i = s.i)
    (hbyte : t.readByte (byteAddr s.i row) = s.readByte (byteAddr s.i row)) :
    rowLights t startX startY row px py ↔ rowLights s startX startY row px py := by
  unfold rowLights
  rw [hi, hbyte]

/-- Drawing leaves a byte outside the picture as it was, and detached every byte (R201 (e)). -/
theorem State.readByte_drawSprite_of_apart (hw : s.memory.wf = true) (ha : spriteApart s n)
    (hrow : row < n) (m : Nat) :
    (s.drawSprite startX startY m).readByte (byteAddr s.i row) = s.readByte (byteAddr s.i row) := by
  rcases ha with hd | hbelow
  · exact congrArg (Memory.read · _) ((s.drawSprite_frame startX startY m).detached hd)
  · refine s.drawSprite_outside startX startY m hw _ fun _ _ _ _ hcell => ?_
    have := hbelow row hrow
    omega

/-- A sprite apart from the picture lights the same rows however much of it is drawn. -/
theorem State.rowLights_drawSprite (hw : s.memory.wf = true) (ha : spriteApart s n) (hrow : row < n)
    (m : Nat) : rowLights (s.drawSprite startX startY m) startX startY row px py ↔
      rowLights s startX startY row px py :=
  rowLights_congr (s.drawSprite_frame startX startY m).i (readByte_drawSprite_of_apart hw ha hrow m)

theorem State.rowsLight_drawSprite (hw : s.memory.wf = true) (ha : spriteApart s n) (m : Nat) :
    rowsLight (s.drawSprite startX startY m) startX startY n px py ↔ rowsLight s startX startY n px py :=
  exists_congr fun _ => and_congr_right fun hrow => rowLights_drawSprite hw ha hrow m

theorem spriteApart_of_le {m : Nat} (ha : spriteApart s n) (h : m ≤ n) : spriteApart s m :=
  ha.imp_right fun hbelow row hrow => hbelow row (hrow.trans_le h)

theorem State.DrawFrame.spriteApart (h : DrawFrame s t) (ha : spriteApart s n) : spriteApart t n := by
  unfold Machine.spriteApart
  rwa [h.fbDetached, h.i]

/-! ### The whole sprite -/

/-- A sprite apart from the picture and no higher than the screen changes exactly the pixels it lights that have
storage. -/
theorem State.pixel_drawSprite (hw : s.memory.wf = true) (hn : n ≤ 32) (ha : spriteApart s n)
    (hx : px < 64) (hy : py < 32) :
    (s.drawSprite startX startY n).pixel px py ≠ s.pixel px py ↔
      hasStorage s px py ∧ rowsLight s startX startY n px py := by
  induction n with
  | zero => exact iff_of_false (fun h => h rfl) fun h => not_rowsLight_zero h.2
  | succ n ih =>
    have hframe := s.drawSprite_frame startX startY n
    have hlast := (s.drawSprite startX startY n).pixel_drawRow startX startY n (hframe.wf hw) hx hy
    rw [hasStorage_congr hframe.fbDetached, rowLights_drawSprite hw ha n.lt_succ_self n] at hlast
    have hfresh := not_rowsLight_of_rowLights (s := s) (startX := startX) (startY := startY)
      (px := px) (py := py) (Nat.lt_of_succ_le hn)
    rw [s.drawSprite_succ,
      change_trans (ih (Nat.le_of_succ_le hn) (spriteApart_of_le ha n.le_succ)) hlast, rowsLight_succ]
    tauto

/-- A sprite apart from the picture and no higher than the screen reports a collision exactly when it lights a
pixel that was lit before it. -/
theorem State.getV_drawSprite (hw : s.memory.wf = true) (hn : n ≤ 32) (ha : spriteApart s n) :
    (s.drawSprite startX startY n).getV regF = 1 ↔ s.getV regF = 1 ∨
      ∃ px py, px < 64 ∧ py < 32 ∧ rowsLight s startX startY n px py ∧ s.pixel px py = true := by
  induction n with
  | zero => exact (or_iff_left fun ⟨_, _, _, _, hlit, _⟩ => not_rowsLight_zero hlit).symm
  | succ n ih =>
    have hn' := Nat.le_of_succ_le hn
    have ha' := spriteApart_of_le ha n.le_succ
    have hframe := s.drawSprite_frame startX startY n
    have hsame {px py : Nat} (hx : px < 64) (hy : py < 32) (h : rowLights s startX startY n px py) :
        (s.drawSprite startX startY n).pixel px py = s.pixel px py :=
      not_ne_iff.1 fun hne => not_rowsLight_of_rowLights (Nat.lt_of_succ_le hn) h
        ((pixel_drawSprite hw hn' ha' hx hy).1 hne).2
    rw [s.drawSprite_succ, getV_drawRow _ _ _ _ (hframe.wf hw), ih hn' ha', or_assoc]
    refine or_congr_right ?_
    simp only [rowLights_drawSprite hw ha n.lt_succ_self n, rowsLight_succ, or_and_right, and_or_left,
      exists_or]
    refine or_congr_right (exists_congr fun px => exists_congr fun py => ?_)
    exact and_congr_right fun hx => and_congr_right fun hy => and_congr_right fun h => by rw [hsame hx hy h]

end

/-! ### The instruction -/

section

variable {x y : Reg} {n : Nat} {s t : State}

/-- `DXYN` changes exactly the pixels its sprite lights that have storage (R201). -/
theorem exec_drw_pixel (hw : s.memory.wf = true) (hn : n < 16) (ha : spriteApart s n)
    (h : exec (.drw x y n) s = .next t) {px py : Nat} (hx : px < 64) (hy : py < 32) :
    t.pixel px py ≠ s.pixel px py ↔ hasStorage s px py ∧ spriteLights s x y n px py := by
  cases h
  rw [spriteLights_iff_rowsLight]
  exact State.pixel_drawSprite (s := s.setV regF 0) hw (by omega) ha hx hy

/-- `DXYN` reports a collision exactly when its sprite lights a lit pixel (R201). -/
theorem exec_drw_regF (hw : s.memory.wf = true) (hn : n < 16) (ha : spriteApart s n)
    (h : exec (.drw x y n) s = .next t) :
    t.getV regF = 1 ↔
      ∃ px py, px < 64 ∧ py < 32 ∧ spriteLights s x y n px py ∧ s.pixel px py = true := by
  cases h
  simp only [spriteLights_iff_rowsLight]
  refine (State.getV_drawSprite (s := s.setV regF 0) hw (by omega) ha).trans (or_iff_right ?_)
  rw [State.getV_setV_self]
  decide

/-- Where `DXYN` left its coordinates alone, the sprite it draws again is the one it drew. -/
theorem spriteLights_of_exec_drw (hw : s.memory.wf = true) (ha : spriteApart s n)
    (h : exec (.drw x y n) s = .next t) (hx : t.getV x = s.getV x) (hy : t.getV y = s.getV y)
    {px py : Nat} : spriteLights t x y n px py ↔ spriteLights s x y n px py := by
  rw [spriteLights_iff_rowsLight, spriteLights_iff_rowsLight, hx, hy]
  cases h
  exact State.rowsLight_drawSprite (s := s.setV regF 0) hw ha n

end

/-- Settles O40: a pixel that changes is inverted, and one without storage is dark before and after. -/
theorem drawTogglesExactlyTheSprite : Obligations.DrawTogglesExactlyTheSprite := by
  unfold Obligations.DrawTogglesExactlyTheSprite
  intro x y n s hwf hn ha
  refine ⟨_, exec_drw x y n s, fun px py hx hy => ?_⟩
  have hchange := exec_drw_pixel hwf hn ha (exec_drw x y n s) hx hy
  have hmode := (exec_drw_frame (exec_drw x y n s)).fbDetached
  refine ⟨fun hs => ⟨fun hlit => ?lit, fun hlit => ?unlit⟩, fun hs => ?dark⟩
  case lit => exact Bool.eq_not.2 (hchange.2 ⟨hs, hlit⟩)
  case unlit => exact not_ne_iff.1 fun hne => hlit (hchange.1 hne).2
  case dark => exact State.pixel_of_noStorage _ ((hasStorage_congr hmode px py).not.2 hs)

/-- Settles O41: VF is 1 exactly on a collision, and it is 0 or 1. -/
theorem drawReportsCollision : Obligations.DrawReportsCollision := by
  unfold Obligations.DrawReportsCollision
  intro x y n s hwf hn ha
  have hflag := exec_drw_regF hwf hn ha (exec_drw x y n s)
  refine ⟨_, exec_drw x y n s, hflag.2, fun hdark => ?_⟩
  refine (exec_drw_regF_cases (exec_drw x y n s)).resolve_right fun hone => ?_
  obtain ⟨px, py, hx, hy, hlit, hpix⟩ := hflag.1 hone
  exact Bool.false_ne_true ((hdark px py hx hy hlit).symm.trans hpix)

/-- Settles O42: both draws change the same pixels, so a pixel changes twice or not at all. -/
theorem drawingTwiceRestoresThePicture : Obligations.DrawingTwiceRestoresThePicture := by
  unfold Obligations.DrawingTwiceRestoresThePicture
  intro x y n s t hwf hn ha h hvx hvy
  have hframe := exec_drw_frame h
  have hsame {px py : Nat} := spriteLights_of_exec_drw hwf ha h hvx hvy (px := px) (py := py)
  have hat := hframe.spriteApart ha
  refine ⟨_, exec_drw x y n t, fun px py hx hy => ?picture, ?flag⟩
  case picture =>
    have hfirst := exec_drw_pixel hwf hn ha h hx hy
    have hsecond := exec_drw_pixel (hframe.wf hwf) hn hat (exec_drw x y n t) hx hy
    rw [hasStorage_congr hframe.fbDetached, hsame] at hsecond
    exact not_ne_iff.1 fun hne => (change_trans hfirst hsecond).1 hne Iff.rfl
  case flag =>
    simpa only [hsame] using exec_drw_regF (hframe.wf hwf) hn hat (exec_drw x y n t)

/-- Settles O43: the last row is one `drawRow` on the state that the rows above it leave, and nothing is asked
of what the sprite overlaps. -/
theorem drawReadsEachRowWhenItIsDrawn : Obligations.DrawReadsEachRowWhenItIsDrawn := by
  unfold Obligations.DrawReadsEachRowWhenItIsDrawn
  intro x y n s hwf
  have hframe := exec_drw_frame (exec_drw x y n s)
  have hw := hframe.wf hwf
  have hsucc := (s.setV regF 0).drawSprite_succ (s.getV x) (s.getV y) n
  refine ⟨_, _, exec_drw x y n s, (exec_drw x y (n + 1) s).trans (congrArg _ hsucc),
    fun px py hx hy hs => ?picture, State.getV_drawRow _ _ _ n hw⟩
  have hchange := State.pixel_drawRow _ (s.getV x) (s.getV y) n hw hx hy
  exact ⟨fun hlit => Bool.eq_not.2 (hchange.2 ⟨(hasStorage_congr hframe.fbDetached px py).2 hs, hlit⟩),
    fun hlit => not_ne_iff.1 fun hne => hlit (hchange.1 hne).2⟩

end Sys2Proof.Machine
end

section
/-! PROOF. The keypad (spec/47_keypad.md): the key a register names, the scan for any key, and the steps of an
instruction whose encoding is fetched. -/

namespace Sys2Proof.Machine

/-! ### The key tests -/

/-- The skips name a key by the low four bits of V[X] (R213). -/
theorem keyIndex_eq {b : Byte} {k : Fin 16} (h : k.val = b.toNat % 16) : keyIndex b = k := Fin.ext h.symm

theorem State.anyKeyDown_iff (s : State) : s.anyKeyDown = true ↔ ∃ k, s.keyDown k = true := by
  simp [State.anyKeyDown]

theorem exec_ldVKey_of_pressed (x : Reg) {s : State} (h : ∃ k, s.keyDown k = true) :
    exec (.ldVKey x) s = .next (s.setV x 1) := if_pos (s.anyKeyDown_iff.mpr h)

theorem exec_ldVKey_of_released (x : Reg) {s : State} (h : ∀ k, s.keyDown k = false) :
    exec (.ldVKey x) s = .next (s.setPc (s.pc - 2)) :=
  if_neg fun hany => by
    obtain ⟨k, hk⟩ := s.anyKeyDown_iff.mp hany
    exact Bool.false_ne_true ((h k).symm.trans hk)

/-- Settles O25: the scan decides between a write of V[X] and a write of PC. -/
theorem keyWaitStoresOneOrRewinds : Obligations.KeyWaitStoresOneOrRewinds := by
  unfold Obligations.KeyWaitStoresOneOrRewinds
  refine fun x s => ⟨fun hk => ⟨_, exec_ldVKey_of_pressed x hk, ?one, s.onlyVChanged_setV x 1⟩,
    fun hk => ⟨_, exec_ldVKey_of_released x hk, ?rewound, s.onlyPcChanged_setPc _⟩⟩
  case one => rw [State.getV_setV_self]; rfl
  case rewound =>
    rw [State.setPc_pc, BitVec.toNat_sub, Nat.add_comm]
    rfl

/-- Settles O24: the key tested is the one of the low four bits of V[X], and its state decides each skip. -/
theorem keypadSkipsTestTheKey : Obligations.KeypadSkipsTestTheKey := by
  unfold Obligations.KeypadSkipsTestTheKey
  intro x s k hk
  obtain rfl := keyIndex_eq hk
  exact ⟨exec_skips_when rfl Iff.rfl, exec_skips_unless rfl (by rw [Bool.not_eq_true', Bool.not_eq_true]; rfl)⟩

/-! ### The step of a fetched encoding -/

/-- A step that dispatches an instruction's encoding runs the instruction past the fetch (R123, R125). -/
theorem step_of_fetchWord_encode {i : Instr} {s : State} (hd : s.Dispatches) (hw : s.fetchWord = encode i)
    (hi : i.wf = true) : step s = retire s.fetchWord (exec i s.advance) := by
  have hdecode : decode s.fetchWord = .ok i := by rw [hw, decode_encode hi]
  rw [step_of_dispatches hd, execute_of_decode hdecode]

/-- If the instruction completes, the step ticks after it and reports the word (R126, R127). -/
theorem step_next_of_fetchWord_encode {i : Instr} {s t : State} (hd : s.Dispatches)
    (hw : s.fetchWord = encode i) (hi : i.wf = true) (ht : exec i s.advance = .next t) :
    step s = .next (t.tick.answer (.executed s.fetchWord)) := by
  rw [step_of_fetchWord_encode hd hw hi, ht]
  rfl

/-- Going back by 2 undoes fetch's advance, also across 65535 (R35). -/
theorem State.advance_setPc_sub_two (s : State) : s.advance.setPc (s.advance.pc - 2) = s := by
  have hpc : s.pc + 2 - 2 = s.pc := add_sub_cancel_right s.pc 2
  show { s with pc := s.pc + 2 - 2 } = s
  rw [hpc]

/-- Settles O26: the wait takes PC back to the instruction itself, so that only the tick is left. -/
theorem waitingStepOnlyTicks : Obligations.WaitingStepOnlyTicks := by
  unfold Obligations.WaitingStepOnlyTicks
  intro x s hd hw hk
  have hwait : exec (.ldVKey x) s.advance = .next s := by
    rw [exec_ldVKey_of_released x (s := s.advance) hk, s.advance_setPc_sub_two]
  exact step_next_of_fetchWord_encode (i := .ldVKey x) hd hw rfl hwait

end Sys2Proof.Machine
end

section
/-! PROOF. The timers and the flag registers (spec/48_timers_flags.md): the moves between V and a timer, the
tick of the step that makes one, and the copies between V and FLAG. -/

namespace Sys2Proof.Machine

/-! ### The timer moves -/

/-- Settles O44: each is one write of V[X], DT or ST. -/
theorem timerMoves : Obligations.TimerMoves := by
  unfold Obligations.TimerMoves
  exact fun x s =>
    ⟨⟨decode_encode (i := .ldVDt x) rfl, _, rfl, s.getV_setV_self x s.dt, s.onlyVChanged_setV x s.dt⟩,
     ⟨decode_encode (i := .ldDtV x) rfl, _, rfl, rfl, rfl, fun _ => rfl⟩,
     ⟨decode_encode (i := .ldStV x) rfl, _, rfl, rfl, rfl, fun _ => rfl⟩⟩

/-- Settles O45: the move comes first, and the tick then counts from the state the move left. -/
theorem timerStepsTickAfterwards : Obligations.TimerStepsTickAfterwards := by
  unfold Obligations.TimerStepsTickAfterwards
  refine fun x s hd => ⟨fun hw => ?readDt, fun hw => ?setDt, fun hw => ?setSt⟩
  case readDt =>
    refine ⟨_, step_next_of_fetchWord_encode (i := .ldVDt x) hd hw rfl rfl, ?_, State.tick_dt_toNat _⟩
    rw [State.getV_answer, State.getV_tick, State.getV_setV_self, State.advance_dt]
  case setDt =>
    exact ⟨_, step_next_of_fetchWord_encode (i := .ldDtV x) hd hw rfl rfl, State.tick_dt_toNat _⟩
  case setSt =>
    exact ⟨_, step_next_of_fetchWord_encode (i := .ldStV x) hd hw rfl rfl, State.tick_st_toNat _⟩

/-! ### The flag registers -/

/-- Settles O46: each loop writes the registers up to X, from registers it does not change, and no other. -/
theorem flagRegistersSaveAndRestore : Obligations.FlagRegistersSaveAndRestore := by
  unfold Obligations.FlagRegistersSaveAndRestore
  intro x s
  have hin {k : Reg} (hk : k ≤ x) : k ∈ regRange x := (mem_regRange x k).mpr hk
  have hout {k : Reg} (hk : x < k) : k ∉ regRange x := (mem_regRange x k).not.mpr (not_le_of_gt hk)
  refine ⟨⟨decode_encode (i := .saveFlags x) rfl, _, rfl, s.saveFrom_eq _, ?savedMemory,
      fun k hk => (s.getFlag_saveFrom _ k).trans (if_pos (hin hk)),
      fun k hk => (s.getFlag_saveFrom _ k).trans (if_neg (hout hk))⟩,
    ⟨decode_encode (i := .restoreFlags x) rfl, _, rfl, s.restoreFrom_eq _, ?restoredMemory,
      fun k hk => (s.getV_restoreFrom _ k).trans (if_pos (hin hk)),
      fun k hk => (s.getV_restoreFrom _ k).trans (if_neg (hout hk))⟩⟩
  case savedMemory => intro a; rw [s.saveFrom_eq]; rfl
  case restoredMemory => intro a; rw [s.restoreFrom_eq]; rfl

end Sys2Proof.Machine
end

section
/-! PROOF. The host interface (spec/50_host_interface.md): what each host operation leaves good and leaves
unchanged, and the framebuffer it reads. -/

namespace Sys2Proof.Machine

/-! ### Good states -/

/-- Settles O52: operation by operation, in `State.Inv.hostOp`. -/
theorem hostOperationsKeepTheInvariant : Obligations.HostOperationsKeepTheInvariant := by
  unfold Obligations.HostOperationsKeepTheInvariant
  exact fun op _ hs => hs.hostOp op

namespace State

variable (s : State)

/-! ### The host's writes -/

theorem keyDown_setKey (k j : Fin 16) (pressed : Bool) :
    (s.setKey k pressed).keyDown j = if j = k then pressed else s.keyDown j := by
  by_cases h : j = k
  · subst h
    simp [setKey, keyDown]
  · have hval : k.val ≠ j.val := fun e => h (Fin.ext e.symm)
    simp [setKey, keyDown, h, hval]

theorem getFlag_setFlag (r q : Reg) (b : Byte) :
    (s.setFlag r b).getFlag q = if q = r then b else s.getFlag q := by
  by_cases h : q = r
  · subst h
    rw [getFlag_setFlag_self, if_pos rfl]
  · rw [getFlag_setFlag_ne s b h, if_neg h]

/-! ### The framebuffer the host reads -/

/-- Detached, the picture is the detached buffer, dark past its end (R68). -/
theorem fbRead_detached (fi : Nat) (hd : s.fbDetached = true) : s.fbRead fi = s.dfb[fi]?.getD 0 := if_pos hd

theorem readFramebuffer_attached (hd : s.fbDetached = false) :
    s.readFramebuffer = (List.range 256).map fun fi => s.readByte (Config.fbBase + fi) :=
  if_neg (by simp [hd])

theorem readFramebuffer_detached (hd : s.fbDetached = true) : s.readFramebuffer = s.dfb.toList := if_pos hd

theorem length_readFramebuffer : s.readFramebuffer.length = if s.fbDetached then 255 else 256 := by
  cases hd : s.fbDetached with
  | false => simp [s.readFramebuffer_attached hd]
  | true => simp [s.readFramebuffer_detached hd]

theorem getElem_readFramebuffer (fi : Nat) (h : fi < s.readFramebuffer.length) :
    s.readFramebuffer[fi] = s.fbRead fi := by
  cases hd : s.fbDetached with
  | false => simp [s.readFramebuffer_attached hd, s.fbRead_attached fi hd]
  | true =>
    have hfi : fi < 255 := by rwa [s.length_readFramebuffer, if_pos hd] at h
    simp [s.readFramebuffer_detached hd, s.fbRead_detached fi hd, hfi]

end State

/-- Settles O59: each operation is one record update, and a key or flag register is read back by its number. -/
theorem hostWritesChangeOneThing : Obligations.HostWritesChangeOneThing := by
  unfold Obligations.HostWritesChangeOneThing
  exact fun s k pressed b =>
    ⟨rfl, fun j => s.keyDown_setKey k j pressed, rfl, fun j => s.getFlag_setFlag k j b, rfl⟩

/-- Settles O60: in each mode both read the same 256 cells or the same 255 bytes. -/
theorem hostReadsTheDrawnPicture : Obligations.HostReadsTheDrawnPicture := by
  unfold Obligations.HostReadsTheDrawnPicture
  exact fun s => ⟨s.length_readFramebuffer, s.getElem_readFramebuffer⟩

end Sys2Proof.Machine
end

section
/-! PROOF. Errors (spec/60_exceptions.md): the condition of each kind of error, the one refusal, what ends it,
and what no step changes. -/

namespace Sys2Proof.Machine

/-! ### The condition of each error -/

/-- The words outside the opcode map are those the decoder rejects (R96). -/
theorem decode_error_iff (op : Word) :
    (∃ r, decode op = .error r) ↔ ∀ r ∈ opcodeRows, r.selects op = false := by
  obtain ⟨haccepts, -, -⟩ := decodeAcceptsExactlyTheOpcodeMap op
  have hrejects : (∃ r, decode op = .error r) ↔ ¬ ∃ i, decode op = .ok i := by
    cases decode op <;> simp
  rw [hrejects, haccepts]
  simp

/-- The list of errors: when a step from this state ends in each kind (R261 to R264). -/
inductive StepRaises (s : State) : ErrorKind → Prop
  | notLoaded (hf : s.fatalError = none) (hr : s.romLoaded = false) : StepRaises s .romNotLoaded
  | invalid (hd : s.Dispatches) {r : Reject} (hw : decode s.fetchWord = .error r) :
      StepRaises s .invalidOpcode
  | full (hd : s.Dispatches) {nnn : Addr} (hw : decode s.fetchWord = .ok (.call nnn)) (hsp : 48 ≤ s.sp) :
      StepRaises s .stackOverflow
  | emptyConflated (hd : s.Dispatches) (hw : decode s.fetchWord = .ok .ret) (hsp : s.sp = 0)
      (hc : s.params.stackErrorConflated = true) : StepRaises s .stackOverflow
  | empty (hd : s.Dispatches) (hw : decode s.fetchWord = .ok .ret) (hsp : s.sp = 0)
      (hc : s.params.stackErrorConflated = false) : StepRaises s .stackUnderflow

/-- An error of a step is on the list, with its kind. -/
theorem stepRaises_of_step_fault {s : State} {f : Fault} (h : step s = .fault f) : StepRaises s f.kind := by
  rcases step_fault h with ⟨hf, hr, hu⟩ | ⟨hd, ⟨⟨r, hw⟩, hu⟩ | ⟨i, hw, he⟩⟩
  · rw [(State.raise_eq_fault _ hu).1]
    exact .notLoaded hf hr
  · rw [(State.raise_eq_fault _ hu).1]
    exact .invalid hd hw
  · rcases exec_fault he with ⟨nnn, rfl, hsp, hu⟩ | ⟨rfl, hsp, hu⟩ <;> rw [(State.raise_eq_fault _ hu).1]
    · exact .full hd hw hsp
    · cases hc : s.params.stackErrorConflated with
      | false =>
        rw [State.underflowKind, State.advance_params, hc]
        exact .empty hd hw hsp hc
      | true =>
        rw [State.underflowKind, State.advance_params, hc]
        exact .emptyConflated hd hw hsp hc

/-- A dispatched instruction that raises an error ends the step with it (R125). -/
theorem step_raises_of_exec_raises {s u : State} {i : Instr} {k : ErrorKind} (hd : s.Dispatches)
    (hw : decode s.fetchWord = .ok i) (he : exec i s.advance = u.raise k) : step s = u.raise k := by
  rw [step_of_dispatches hd, execute_of_decode hw, he, retire_raise]

/-- On each condition of the list the step raises that kind. -/
theorem StepRaises.step_raises {s : State} {k : ErrorKind} (h : StepRaises s k) :
    ∃ u : State, step s = u.raise k := by
  cases h with
  | notLoaded hf hr => exact ⟨s, by rw [step_of_running hf, if_pos hr]⟩
  | invalid hd hw => exact ⟨s.advance, by rw [step_of_dispatches hd, execute_of_reject hw, retire_raise]⟩
  | full hd hw hsp => exact ⟨_, step_raises_of_exec_raises hd hw (exec_call_of_full _ hsp)⟩
  | emptyConflated hd hw hsp hc =>
    have hk : s.advance.underflowKind = .stackOverflow := if_pos hc
    exact ⟨_, step_raises_of_exec_raises hd hw (hk ▸ exec_ret_of_empty (s := s.advance) hsp)⟩
  | empty hd hw hsp hc =>
    have hk : s.advance.underflowKind = .stackUnderflow := if_neg (by simp [hc])
    exact ⟨_, step_raises_of_exec_raises hd hw (hk ▸ exec_ret_of_empty (s := s.advance) hsp)⟩

/-- The fault of a kind, with the state it carries (R260, R269). -/
def ErrorKind.fault : ErrorKind → State → Fault
  | .romNotLoaded => .romNotLoaded
  | .invalidOpcode => .invalidOpcode
  | .stackOverflow => .stackOverflow
  | .stackUnderflow => .stackUnderflow

theorem ErrorKind.kind_fault (k : ErrorKind) (t : State) : (k.fault t).kind = k := by cases k <;> rfl

theorem State.raise_eq (s : State) (k : ErrorKind) :
    s.raise k = .fault (k.fault (s.answer (.error k))) := by cases k <;> rfl

/-- A step ends in an error of a kind exactly on the conditions the list gives that kind. -/
theorem step_eq_fault_iff (s : State) (k : ErrorKind) :
    (∃ t, step s = .fault (k.fault t)) ↔ StepRaises s k := by
  constructor
  · rintro ⟨t, h⟩
    exact k.kind_fault t ▸ stepRaises_of_step_fault h
  · intro h
    obtain ⟨u, hu⟩ := h.step_raises
    exact ⟨_, hu.trans (u.raise_eq k)⟩

/-- InvalidOpcode is raised by dispatch, for the words outside the opcode map (R262). -/
theorem stepRaises_invalidOpcode_iff (s : State) :
    StepRaises s .invalidOpcode ↔ s.Dispatches ∧ ∀ r ∈ opcodeRows, r.selects s.fetchWord = false := by
  rw [← decode_error_iff]
  constructor
  · rintro (_ | ⟨hd, hw⟩)
    exact ⟨hd, _, hw⟩
  · rintro ⟨hd, r, hw⟩
    exact .invalid hd hw

/-- Settles O6: the condition of InvalidOpcode, in a state that dispatches. -/
theorem stepReportsExactlyTheInvalidWords : Obligations.StepReportsExactlyTheInvalidWords := by
  unfold Obligations.StepReportsExactlyTheInvalidWords
  intro s hd
  exact (step_eq_fault_iff s .invalidOpcode).trans
    ((stepRaises_invalidOpcode_iff s).trans (and_iff_right hd))

/-- Settles O11: the conditions of the list, kind by kind. -/
theorem stepErrorsAreExactlyTheListed : Obligations.StepErrorsAreExactlyTheListed := by
  unfold Obligations.StepErrorsAreExactlyTheListed
  intro s
  refine ⟨(step_eq_fault_iff s .romNotLoaded).trans ⟨?_, ?_⟩,
    (step_eq_fault_iff s .invalidOpcode).trans (stepRaises_invalidOpcode_iff s),
    (step_eq_fault_iff s .stackOverflow).trans ⟨?_, ?_⟩,
    (step_eq_fault_iff s .stackUnderflow).trans ⟨?_, ?_⟩⟩
  · rintro ⟨hf, hr⟩
    exact ⟨hf, hr⟩
  · rintro ⟨hf, hr⟩
    exact .notLoaded hf hr
  · rintro (_ | _ | ⟨hd, hw, hsp⟩ | ⟨hd, hw, hsp, hc⟩)
    · exact ⟨hd, .inl ⟨⟨_, hw⟩, hsp⟩⟩
    · exact ⟨hd, .inr ⟨hw, hsp, hc⟩⟩
  · rintro ⟨hd, ⟨⟨nnn, hw⟩, hsp⟩ | ⟨hw, hsp, hc⟩⟩
    · exact .full hd hw hsp
    · exact .emptyConflated hd hw hsp hc
  · rintro (_ | _ | _ | _ | ⟨hd, hw, hsp, hc⟩)
    exact ⟨hd, hw, hsp, hc⟩
  · rintro ⟨hd, hw, hsp, hc⟩
    exact .empty hd hw hsp hc

/-! ### The refusal and its end -/

/-- A step is refused on a pending fatal error alone (R270). -/
theorem step_eq_refused_iff (s : State) (r : Refusal) :
    step s = .refused r ↔ ∃ k, s.fatalError = some k ∧ r = .stepAfterFatalError k := by
  constructor
  · intro h
    rcases step_cases s with ⟨k, hk, he⟩ | ⟨-, -, he⟩ | ⟨-, -, -, he⟩ | ⟨-, -, -, -, he⟩ | ⟨-, he⟩ <;>
      rw [he] at h
    · cases h; exact ⟨k, hk, rfl⟩
    · cases h
    · cases h
    · cases h
    · rcases retire_execute_cases s.fetchWord s.advance with
        ⟨i, t, -, -, hr⟩ | ⟨i, f, -, -, hr⟩ | ⟨q, -, hr⟩ <;> rw [hr] at h <;> cases h
  · rintro ⟨k, hk, rfl⟩
    exact step_of_fatalError hk

theorem step_ne_refused_of_running {s : State} (h : s.fatalError = none) (r : Refusal) :
    step s ≠ .refused r := by
  rw [ne_eq, step_eq_refused_iff]
  rintro ⟨k, hk, -⟩
  exact Option.some_ne_none k (hk.symm.trans h)

/-- Settles O13: the refusal is the first test of the step, and nothing after it refuses. -/
theorem stepRefusesOnlyAfterAFatalError : Obligations.StepRefusesOnlyAfterAFatalError := by
  unfold Obligations.StepRefusesOnlyAfterAFatalError
  exact step_eq_refused_iff

/-- What is pending after a step's error: the error itself, unless it was RomNotLoaded (R261, R270). -/
theorem fatalError_after_of_step_fault {s : State} {f : Fault} (h : step s = .fault f) :
    f.after.fatalError = if f.kind = .romNotLoaded then none else some f.kind := by
  obtain ⟨u, hu⟩ := step_fault_raised h
  rw [(u.raise_eq_fault hu).2, u.fatalError_answer_error]

/-- A ROM load leaves no error pending (R270). -/
theorem State.fatalError_loadRom (s : State) (bs : List Byte) : (s.loadRom bs).fatalError = none := by
  rw [State.fatalError, State.loadRom_reply]

/-- Settles O12: the error left pending decides the next step, and a ROM load leaves none. -/
theorem fatalErrorEndsTheRunUntilARomLoad : Obligations.FatalErrorEndsTheRunUntilARomLoad := by
  unfold Obligations.FatalErrorEndsTheRunUntilARomLoad
  intro s f h
  have hpending := fatalError_after_of_step_fault h
  refine ⟨fun hk => ?again, fun hk => ?refused, fun bs => ?loaded⟩
  case again => exact step_ne_refused_of_running (by rw [hpending, if_pos hk])
  case refused => exact step_of_fatalError (by rw [hpending, if_neg hk])
  case loaded => exact step_ne_refused_of_running (f.after.fatalError_loadRom bs)

/-! ### What only the host may change -/

/-- The keys, the record of the loaded ROM, the framebuffer mode and the parameters are as before. -/
def KeepsHostRecord (s t : State) : Prop :=
  t.keyState = s.keyState ∧ t.romLoaded = s.romLoaded ∧ t.romSize = s.romSize ∧
  t.fbDetached = s.fbDetached ∧ t.params = s.params

theorem exec_keepsHostRecord {i : Instr} {s t : State} (h : exec i s = .next t) : KeepsHostRecord s t := by
  rw [exec_next_eq h]
  exact ⟨rfl, rfl, rfl, rfl, rfl⟩

theorem State.keepsHostRecord_tick (s : State) : KeepsHostRecord s s.tick := by
  rw [s.tick_eq]
  exact ⟨rfl, rfl, rfl, rfl, rfl⟩

theorem KeepsHostRecord.trans {s t u : State} (h : KeepsHostRecord s t) (k : KeepsHostRecord t u) :
    KeepsHostRecord s u := by
  obtain ⟨hkeys, hloaded, hsize, hmode, hparams⟩ := h
  obtain ⟨kkeys, kloaded, ksize, kmode, kparams⟩ := k
  exact ⟨kkeys.trans hkeys, kloaded.trans hloaded, ksize.trans hsize, kmode.trans hmode, kparams.trans hparams⟩

/-- A step that completes makes a Halt of the state, with PC advanced or not, or runs an instruction and
ticks. -/
theorem step_next_keepsHostRecord {s t : State} (h : step s = .next t) : KeepsHostRecord s t := by
  rcases step_cases s with ⟨k, -, he⟩ | ⟨-, -, he⟩ | ⟨-, -, -, he⟩ | ⟨-, -, -, -, he⟩ | ⟨-, he⟩ <;>
    rw [he] at h
  · cases h
  · cases h
  · cases h; exact ⟨rfl, rfl, rfl, rfl, rfl⟩
  · cases h; exact ⟨rfl, rfl, rfl, rfl, rfl⟩
  · rcases retire_execute_cases s.fetchWord s.advance with
      ⟨i, u, -, hu, hr⟩ | ⟨i, f, -, -, hr⟩ | ⟨r, -, hr⟩ <;> rw [hr] at h
    · cases h; exact (exec_keepsHostRecord hu).trans u.keepsHostRecord_tick
    · cases h
    · cases h

/-- Settles O49: a step that completes keeps the host's record, and RomNotLoaded changes no state. -/
theorem noStepChangesWhatOnlyTheHostMay : Obligations.NoStepChangesWhatOnlyTheHostMay := by
  unfold Obligations.NoStepChangesWhatOnlyTheHostMay
  rintro s t (h | ⟨f, h, hc⟩)
  · exact step_next_keepsHostRecord h
  · cases Fault.eq_romNotLoaded_of_certain hc
    cases step_fault_romNotLoaded h rfl
    exact ⟨rfl, rfl, rfl, rfl, rfl⟩

end Sys2Proof.Machine
end

section
/-! PROOF. `Reset()` and `LoadROM` (spec/70_reset_and_hazards.md): the cells each writes, the registers and the
picture each leaves, and the framebuffer mode. -/

namespace Sys2Proof.Machine

namespace State

variable (s : State)

/-! ### `Reset()` -/

/-- A run of bytes that ends within memory reaches just its own addresses. -/
theorem sameMemoryOutside_writeBytes_range {a : Nat} {bs : List Byte} (hwf : s.memory.wf = true)
    (hend : a + bs.length ≤ 4096) :
    SameMemoryOutside (fun c => a ≤ c ∧ c < a + bs.length) s (s.writeBytes a bs) := by
  intro c hc
  refine s.readByte_writeBytes_outside a c bs hwf fun k hk hcell => hc ?_
  have hin : cellOf (a + k) = a + k := Nat.mod_eq_of_lt (show a + k < 4096 by omega)
  rw [hcell, hin]
  omega

/-- The registers, timers and counter of R291 zeroed, which `Reset()` does before it clears the picture and the
stack. -/
def zeroRegisters (s : State) : State :=
  { s with
    sp := 0, i := 0, dt := 0, st := 0, tickCounter := 0
    v := Vector.replicate 16 0, flag := Vector.replicate 16 0 }

/-- `Reset()` clears the 96 bytes of the stack last (R291). -/
theorem resetMachine_eq : s.resetMachine = s.zeroRegisters.fbClear.writeBytes 0xEA0 (zeroBytes 96) := rfl

theorem getV_resetMachine (r : Reg) : s.resetMachine.getV r = 0 := by simp [getV]

theorem getFlag_resetMachine (r : Reg) : s.resetMachine.getFlag r = 0 := by simp [getFlag]

/-- The stack bytes read 0 after `Reset()` (R291). -/
theorem readByte_resetMachine_stack (hwf : s.memory.wf = true) {a : Nat} (hlo : 0xEA0 ≤ a) (hhi : a < 0xF00) :
    s.resetMachine.readByte a = 0 := by
  have hk : a - 0xEA0 < (zeroBytes 96).length := by rw [length_zeroBytes]; omega
  have hread := s.zeroRegisters.fbClear.readByte_writeBytes_at 0xEA0 (zeroBytes 96)
    (fbClear_wf _ hwf) (by rw [length_zeroBytes]; decide) (a - 0xEA0) hk
  rwa [Nat.add_sub_cancel' hlo, getElem_zeroBytes] at hread

/-- Outside the stack, memory is what clearing the picture leaves (R291). -/
theorem readByte_resetMachine_outside_stack (hwf : s.memory.wf = true) {a : Nat}
    (ha : ¬ (0xEA0 ≤ cellOf a ∧ cellOf a < 0xF00)) :
    s.resetMachine.readByte a = s.zeroRegisters.fbClear.readByte a := by
  have hframe := s.zeroRegisters.fbClear.sameMemoryOutside_writeBytes_range (a := 0xEA0) (bs := zeroBytes 96)
    (fbClear_wf _ hwf) (by rw [length_zeroBytes]; decide)
  rw [length_zeroBytes] at hframe
  rw [resetMachine_eq]
  exact hframe a ha

/-- `Reset()` writes the stack and, attached, the picture above it; no other cell (R38, R291). -/
theorem sameMemoryOutside_resetMachine (hwf : s.memory.wf = true) :
    SameMemoryOutside (fun c => 0xEA0 ≤ c ∧ (c < 0xF00 ∨ s.fbDetached = false)) s s.resetMachine := by
  intro a ha
  rw [s.readByte_resetMachine_outside_stack hwf fun hc => ha ⟨hc.1, .inl hc.2⟩]
  cases hd : s.fbDetached with
  | false =>
    exact s.zeroRegisters.sameMemoryOutside_fbClear hwf hd a fun hc => ha ⟨le_trans (by decide) hc, .inr hd⟩
  | true => exact congrArg (·.read a) (s.zeroRegisters.fbClear_frame.detached hd)

/-- The picture is dark after `Reset()`: the stack that is cleared after it lies below it (R291). -/
theorem fbRead_resetMachine (hwf : s.memory.wf = true) {fi : Nat} (hfi : fi < 256) :
    s.resetMachine.fbRead fi = 0 := by
  cases hd : s.fbDetached with
  | false =>
    have hdark : s.zeroRegisters.fbClear.fbRead fi = 0 := s.zeroRegisters.fbRead_fbClear hwf fi hfi
    have hcell : cellOf (0xF00 + fi) = 0xF00 + fi := Nat.mod_eq_of_lt (show 0xF00 + fi < 4096 by omega)
    rw [fbRead_attached _ fi ((fbClear_fbDetached s.zeroRegisters).trans hd)] at hdark
    rw [fbRead_attached _ fi (s.resetMachine_fbDetached.trans hd),
      s.readByte_resetMachine_outside_stack hwf (by rw [hcell]; omega), hdark]
  | true =>
    rw [fbRead_detached _ fi (s.resetMachine_fbDetached.trans hd), resetMachine_dfb, if_pos hd, getD_blankDfb]

end State

/-- Settles O56: the zeros and what they leave are those of the registers, the picture and the stack. -/
theorem resetZeroesExactlyItsList : Obligations.ResetZeroesExactlyItsList := by
  unfold Obligations.ResetZeroesExactlyItsList
  intro s hwf
  exact ⟨s.resetMachine_sp, s.resetMachine_i, s.resetMachine_dt, s.resetMachine_st, s.resetMachine_tickCounter,
    fun r => ⟨s.getV_resetMachine r, s.getFlag_resetMachine r⟩, fun _ => s.fbRead_resetMachine hwf,
    fun _ => s.readByte_resetMachine_stack hwf, s.sameMemoryOutside_resetMachine hwf,
    s.resetMachine_pc, s.resetMachine_keyState, s.resetMachine_romLoaded, s.resetMachine_romSize,
    s.resetMachine_fbDetached, fun hd => by rw [s.resetMachine_dfb, hd]; rfl⟩

/-! ### `LoadROM` -/

namespace State

variable (s : State)

theorem resetUnlessFirst_later (h : s.romLoaded = true) : s.resetUnlessFirst = s.resetMachine := if_pos h

theorem resetUnlessFirst_first (h : s.romLoaded = false) : s.resetUnlessFirst = s := if_neg (by simp [h])

/-- `Reset()` on a later load zeroes the registers, and its omission on the first keeps them (R294). -/
theorem loadedRegisters_resetUnlessFirst : LoadedRegisters s s.resetUnlessFirst := by
  cases h : s.romLoaded with
  | false => rw [s.resetUnlessFirst_first h]; constructor <;> simp [h]
  | true => rw [s.resetUnlessFirst_later h]; constructor <;> simp [h, getV_resetMachine, getFlag_resetMachine]

/-- Neither a load that copies nor one that does not writes a register or PC (R292, R295). -/
theorem loadedRegisters_loadRom (bs : List Byte) : LoadedRegisters s (s.loadRom bs) := by
  obtain ⟨hv, hflag, hi, hsp, hdt, hst, htick, hpc, hkeys⟩ := s.loadedRegisters_resetUnlessFirst
  cases ho : oversized bs.length with
  | false => rw [s.loadRom_copied bs ho]; exact ⟨hv, hflag, hi, hsp, hdt, hst, htick, hpc, hkeys⟩
  | true => rw [s.loadRom_oversized bs ho]; exact ⟨hv, hflag, hi, hsp, hdt, hst, htick, hpc, hkeys⟩

theorem resetUnlessFirst_fbDetached : s.resetUnlessFirst.fbDetached = s.fbDetached := by
  cases h : s.romLoaded with
  | false => rw [s.resetUnlessFirst_first h]
  | true => rw [s.resetUnlessFirst_later h, resetMachine_fbDetached]

/-- Detached, `Reset()` darkens the picture, also past its last byte (R68, R291). -/
theorem fbRead_resetUnlessFirst_detached (fi : Nat) (hd : s.fbDetached = true) :
    s.resetUnlessFirst.fbRead fi = if s.romLoaded then 0 else s.fbRead fi := by
  cases h : s.romLoaded with
  | false => rw [s.resetUnlessFirst_first h]; rfl
  | true =>
    rw [s.resetUnlessFirst_later h, fbRead_detached _ fi (s.resetMachine_fbDetached.trans hd), resetMachine_dfb,
      if_pos hd, getD_blankDfb, if_pos rfl]

/-- A load detaches the framebuffer when the ROM is oversized, and never attaches it (R293). -/
theorem loadRom_fbDetached (bs : List Byte) :
    (s.loadRom bs).fbDetached = (oversized bs.length || s.fbDetached) := by
  cases ho : oversized bs.length with
  | false => rw [s.loadRom_copied bs ho, writeBytes_fbDetached, Bool.false_or]; exact s.resetUnlessFirst_fbDetached
  | true => rw [s.loadRom_oversized bs ho, Bool.true_or]

end State

/-- Settles O57: the copy is one run of bytes over the state `Reset()` or its omission leaves. -/
theorem romLoadCopiesTheProgram : Obligations.RomLoadCopiesTheProgram := by
  unfold Obligations.RomLoadCopiesTheProgram
  intro s bs hwf hlen
  have hsmall : State.oversized bs.length = false :=
    Bool.eq_false_iff.mpr ((State.oversized_iff _).not.mpr (by omega))
  have hcopy := s.loadRom_copied bs hsmall
  have hwf' := s.resetUnlessFirst_wf hwf
  have hkept : (s.loadRom bs).fbDetached = s.fbDetached := by rw [s.loadRom_fbDetached, hsmall, Bool.false_or]
  refine ⟨fun k hk => ?copied, ?outside, ?fields, hkept, fun fi hd => ?picture, s.loadedRegisters_loadRom bs⟩
  case copied =>
    rw [hcopy]
    exact State.readByte_writeBytes_at _ 0x200 bs hwf' (show bs.length ≤ 4096 by omega) k hk
  case outside =>
    rw [hcopy]
    exact State.sameMemoryOutside_writeBytes_range _ hwf' (show 0x200 + bs.length ≤ 4096 by omega)
  case fields => rw [hcopy]; rfl
  case picture =>
    have hread := State.fbRead_detached _ fi (s.resetUnlessFirst_fbDetached.trans hd)
    rw [← s.fbRead_resetUnlessFirst_detached fi hd, hread, State.fbRead_detached _ fi (hkept.trans hd), hcopy]
    rfl

/-- Settles O58: of the state `Reset()` or its omission leaves only the record, the mode and the buffer change,
and a detached framebuffer stays so. -/
theorem oversizedRomDetachesTheFramebuffer : Obligations.OversizedRomDetachesTheFramebuffer := by
  unfold Obligations.OversizedRomDetachesTheFramebuffer
  intro s bs hlen
  have hbig : State.oversized bs.length = true := (State.oversized_iff _).mpr hlen
  have hload := s.loadRom_oversized bs hbig
  have hmode : (s.loadRom bs).fbDetached = true := by rw [hload]
  refine ⟨hmode, fun fi => ?dark, ?memory, ?fields, s.loadedRegisters_loadRom bs, fun cs => ?sticky⟩
  case dark => rw [State.fbRead_detached _ fi hmode, hload, getD_blankDfb]
  case memory => rw [hload]; exact fun _ => rfl
  case fields => rw [hload]; rfl
  case sticky => rw [State.loadRom_fbDetached, hmode, Bool.or_true]

end Sys2Proof.Machine
end
